-- ==== Sys2Proof/Word.lean ====
section
/-! DEFINITION. The value types of the block: bytes (u8) and 64-bit words (u64) of rule R6 of spec/00_scope.md.
Every value is unsigned; `+`, `-` and `*` on `BitVec 64` are the wrapping operations of rule R44. -/

namespace Sys2Proof

/-- u8: a byte of a channel, of TAIL_BUF or of a data operand (R6). -/
abbrev Byte := BitVec 8

/-- u64: an accumulator, the seed, the length counter or the digest (R5, R6). -/
abbrev Word := BitVec 64

end Sys2Proof
end

