-- ==== Sys2Proof/Machine/Operands.lean ====
section
/-! DEFINITION. Byte order and byte sequences: LE64 and LE32 (R21), the little-endian packet and response fields
(R22), slices of a byte sequence (R6, R7), and the loop that consumes a sequence in whole chunks (R53, R61). -/

namespace Sys2Proof.Machine

/-- The little-endian value of a byte sequence, `Σ zext(s[i]) << (8·i)` (R21). -/
def leValue (w : Nat) : List Byte → BitVec w
  | [] => 0#w
  | b :: s => b.setWidth w + (leValue w s <<< 8)

/-- LE64 (R21), used at 8 bytes. -/
def le64 (s : List Byte) : Word := leValue 64 s

/-- LE32 (R21), used at 4 bytes. -/
def le32 (s : List Byte) : BitVec 32 := leValue 32 s

/-- The first `n` bytes of a value, least significant first (R22). -/
def leBytes : Nat → Word → List Byte
  | 0, _ => []
  | n + 1, v => v.setWidth 8 :: leBytes n (v >>> 8)

/-- The 8 bytes of a u64 field: byte 0 is bits 7:0 and byte 7 is bits 63:56 (R22, R32, R33, R39). -/
def le64Bytes (v : Word) : List Byte := leBytes 8 v

/-- `s[i..i+n)` (R6); the shape of `InRead(pos, n)` and of `TailRead(off, n)` (R7). -/
def slice (s : List Byte) (off n : Nat) : List Byte := (s.drop off).take n

/-- `f` over the first `k` chunks of `size` bytes of a sequence, in order. -/
def foldChunks {α : Type} (size : Nat) (f : α → List Byte → α) : Nat → α → List Byte → α
  | 0, a, _ => a
  | k + 1, a, s => foldChunks size f k (f a (slice s 0 size)) (s.drop size)

/-- What the loop "while at least `size` bytes remain: take `size` bytes, apply `f`" leaves of its accumulator
(UPDATE step 4 in R53, pass a in R61): it runs `len(s) / size` times. -/
def foldWhole {α : Type} (size : Nat) (f : α → List Byte → α) (a : α) (s : List Byte) : α :=
  foldChunks size f (s.length / size) a s

/-- The bytes that loop leaves unconsumed. -/
def remainder (size : Nat) (s : List Byte) : List Byte := s.drop (size * (s.length / size))

end Sys2Proof.Machine
end

