-- ==== Sys2Proof/Config.lean ====
section
/-! DEFINITION. What the spec fixes for every block: the mixing constants (R43) as the configuration record that
spec/93_implementation_defined.md I1 asks for, with its default values, and the sizes of rule R5. -/

namespace Sys2Proof.Config

/-- The five mixing constants, "used only as literal mixing constants (PRIME1..PRIME5)" (R43). -/
structure Primes where
  prime1 : Word
  prime2 : Word
  prime3 : Word
  prime4 : Word
  prime5 : Word
deriving DecidableEq, Repr

/-- The values of rule R43. PRESUMED (log 3): the spec itself marks them as general knowledge, not in its source;
UNSAFE if one is wrong, since every digest depends on them. -/
def primes : Primes where
  prime1 := 0x9E3779B185EBCA87#64
  prime2 := 0xC2B2AE3D27D4EB4F#64
  prime3 := 0x165667B19E3779F9#64
  prime4 := 0x85EBCA77C2B2AE63#64
  prime5 := 0x27D4EB2F165667C5#64

/-- Block (stripe) size in bytes, and the capacity of the tail buffer (R5). -/
abbrev blockSize : Nat := 32

/-- The largest value of the 64-bit length counter, 2^64 - 1 (R5, R72). -/
abbrev maxLength : Nat := 2 ^ 64 - 1

end Sys2Proof.Config
end

