-- ==== Sys2Proof/Syntax.lean ====
section
/-! DEFINITION. The commands of the block: one constructor per row of spec/opcode_table.json (R35, R36). -/

namespace Sys2Proof

/-- A decoded command packet. No operand names a register (R37). -/
inductive Instr where
  /-- INIT, format F_SEED: the 64-bit seed (R32, R51). -/
  | init (seed : Word)
  /-- UPDATE, format F_DATA: the data operand D; its length field L is `data.length` (R33, R53). -/
  | update (data : List Byte)
  /-- DIGEST, format F_NONE: no operand (R34, R63). -/
  | digest
  /-- A one-byte packet whose opcode byte is none of 0x01, 0x02, 0x03 (R36, R70). -/
  | illegal (op : Byte)
deriving DecidableEq, Repr

end Sys2Proof
end

