-- ==== Sys2Proof/WellFormed.lean ====
section
/-! DEFINITION. Which terms of `Instr` are packets of the command channel: the bounds of R33 and R36. -/

namespace Sys2Proof

/-- The opcode byte is in the map of rule R35. -/
def isLegalOpcode (op : Byte) : Bool := op == 0x01#8 || op == 0x02#8 || op == 0x03#8

/-- A seed may be any 64-bit value (R32); the data of one UPDATE is at most 2^64 - 1 bytes, the width of its
length field (R33, R5); an illegal packet's opcode is not in the map (R36). -/
def Instr.wellFormed : Instr → Bool
  | .init _ => true
  | .update data => decide (data.length ≤ Config.maxLength)
  | .digest => true
  | .illegal op => !isLegalOpcode op

end Sys2Proof
end

