-- ==== Sys2Proof/Decode.lean ====
section
/-! DEFINITION. The packet formats of spec/30_encoding.md: the decoder, total on any byte sequence (R40), and after
it the encoder, both written from R31 to R36; and the instruction words of spec/opcode_table.json as packets. -/

namespace Sys2Proof

open Sys2Proof.Machine

/-- The three packet formats of rule R31. -/
inductive Format where
  | fSeed
  | fData
  | fNone
deriving DecidableEq, Repr

/-- Why no command can be taken from a byte sequence yet: case (c) of rule R40. None of these is a fault (R77). -/
inductive Incomplete where
  /-- No opcode byte has arrived. -/
  | awaitOpcode
  /-- An INIT with fewer than 9 bytes. -/
  | awaitSeed
  /-- An UPDATE whose length field has not fully arrived. -/
  | awaitLength
  /-- An UPDATE with its length field but fewer than 9 + L bytes. -/
  | awaitData
deriving DecidableEq, Repr

/-- OP of INIT (R35). -/
def opInit : Byte := 0x01#8
/-- OP of UPDATE (R35). -/
def opUpdate : Byte := 0x02#8
/-- OP of DIGEST (R35). -/
def opDigest : Byte := 0x03#8

/-- "The opcode alone fixes the packet's format" (R31); an illegal packet is one byte long (R36). -/
def formatOf (op : Byte) : Format :=
  if op = opInit then .fSeed else if op = opUpdate then .fData else .fNone

/-- The length in bytes of the packet that begins with `op` and whose bytes from byte 1 on are `body` (R31, R38). -/
def packetLength (op : Byte) (body : List Byte) : Nat :=
  match formatOf op with
  | .fSeed => 9
  | .fData => 9 + (le64 (slice body 0 8)).toNat
  | .fNone => 1

/-- The operand field of bytes 1..8 when it has arrived (R32, R33), and the bytes after it. -/
def takeField (body : List Byte) : Option (Word × List Byte) :=
  if 8 ≤ body.length then some (le64 (slice body 0 8), body.drop 8) else none

/-- A command with format F_NONE: DIGEST, or an opcode outside the map (R34, R36). -/
def decodeNone (op : Byte) : Instr := if op = opDigest then .digest else .illegal op

/-- Decoding: the command at the head of the byte sequence and the bytes after its packet, or why there is none
yet. It never depends on an earlier packet or on the block's state (R31, R38, R40). -/
def decode : List Byte → Except Incomplete (Instr × List Byte)
  | [] => .error .awaitOpcode
  | op :: body =>
    match formatOf op with
    | .fNone => .ok (decodeNone op, body)
    | .fSeed =>
      match takeField body with
      | none => .error .awaitSeed
      | some (seed, rest) => .ok (.init seed, rest)
    | .fData =>
      match takeField body with
      | none => .error .awaitLength
      | some (len, rest) =>
        if len.toNat ≤ rest.length then .ok (.update (slice rest 0 len.toNat), rest.drop len.toNat)
        else .error .awaitData

/-- The packet of a command (R31 to R36, R41). -/
def encode : Instr → List Byte
  | .init seed => opInit :: le64Bytes seed
  | .update data => opUpdate :: (le64Bytes (BitVec.ofNat 64 data.length) ++ data)
  | .digest => [opDigest]
  | .illegal op => [op]

/-- Byte `k` of a packet given as a number: bits 8k+7 .. 8k, numbered as spec/opcode_table.json numbers them. -/
def tableByte (nbits w k : Nat) : Byte := BitVec.ofNat 8 ((w % 2 ^ nbits) >>> (8 * k))

/-- The whole packet whose first `nbits` bits are `w`; every bit above `nbits` is 0 (log 10). -/
def tablePacket (nbits w : Nat) : List Byte :=
  let head := (List.range 9).map (tableByte nbits w)
  (List.range (packetLength (tableByte nbits w 0) (head.drop 1))).map (tableByte nbits w)

/-- The command this decoder reads from an opcode-table word. -/
def decodeTableWord (nbits w : Nat) : Option Instr :=
  match decode (tablePacket nbits w) with
  | .ok (i, _) => some i
  | .error _ => none

end Sys2Proof
end

