-- ==== Sys2Proof/Machine/State.lean ====
section
/-! DEFINITION. The state of the block: the registers of rule R8 (spec/10_state.md), and the two channels and the
reset input it shares with the host (R4, R39, R83, R89). -/

namespace Sys2Proof.Machine

/-- The two values of PHASE (R14): UNINIT (0), READY (1). -/
inductive Phase where
  | uninit
  | ready
deriving DecidableEq, Repr

/-- The four lane accumulators ACC1..ACC4 (R10). -/
structure Accumulators where
  acc1 : Word
  acc2 : Word
  acc3 : Word
  acc4 : Word
deriving DecidableEq, Repr

/-- One thing the host does to the block: a byte on the command channel, or an assertion of the reset input
(R83, R89; R91 "a finite command byte sequence C (with reset events at chosen points)"). -/
inductive HostEvent where
  | byte (b : Byte)
  | reset
deriving DecidableEq, Repr

/-- Everything the spec gives the machine (R8; INVENTORY.md, State). -/
structure State where
  /-- SEED (R9). -/
  seed : Word
  /-- ACC1..ACC4 (R10). -/
  acc : Accumulators
  /-- TOTAL_LEN (R11). -/
  totalLen : Word
  /-- TAIL_BUF: its valid bytes in offset order. The bytes at offsets TAIL_USED and above hold no specified value
  and are not represented (R12, D14; log 2). -/
  tailBuf : List Byte
  /-- TAIL_USED, 5 bits (R13). -/
  tailUsed : BitVec 5
  /-- PHASE (R14). -/
  phase : Phase
  /-- FAULT_CAUSE, 8 bits (R15). -/
  faultCause : Byte
  /-- What the host has done and the block has not yet consumed, oldest first; the bytes at its head may be a
  partly received packet (R31, R40, R85). -/
  channel : List HostEvent
  /-- The response channel: the bytes emitted and not yet read by the host, oldest first (R39, R89). -/
  responses : List Byte
deriving DecidableEq, Repr

/-- Reasons for which a step stops the machine: none. The faults of spec/60_exceptions.md are entered (R74) and
answered with a response, so each is a next state with FAULT_CAUSE written; an incomplete packet holds the block
(R40), which is a next state too. Having no constructor is safe (log 6). -/
inductive Fault : Type
deriving DecidableEq, Repr

/-- Reasons for which a command has no meaning in the model. -/
inductive Refusal where
  /-- Raised by an arm of `exec` for a command that has no meaning yet; no arm raises it. Safe: the run stops. -/
  | notModelled (mnemonic : String)
deriving DecidableEq, Repr

/-- The block at power-on and after reset (R16, R83, R84): PHASE = UNINIT, FAULT_CAUSE = 0x00, nothing sent and
nothing emitted. DESIGN CHOICE (log 1): the data registers, which R16 says hold no value, hold 0, and TAIL_BUF no
valid byte; UNSAFE in itself, though no command reads them before INIT writes them (R71). -/
def State.reset : State where
  seed := 0#64
  acc := { acc1 := 0#64, acc2 := 0#64, acc3 := 0#64, acc4 := 0#64 }
  totalLen := 0#64
  tailBuf := []
  tailUsed := 0#5
  phase := .uninit
  faultCause := 0x00#8
  channel := []
  responses := []

end Sys2Proof.Machine
end

