-- ==== Sys2Proof/Machine/Channel.lean ====
section
/-! DEFINITION. The two channels and the reset input: how the block frames packets out of what the host has sent
(R31, R40, R83, R85), and what the host can do to a block (R89). -/

namespace Sys2Proof.Machine

/-- The bytes that arrived before the next reset event. -/
def bytesArrived : List HostEvent → List Byte
  | [] => []
  | .byte b :: es => b :: bytesArrived es
  | .reset :: _ => []

/-- The events from the next reset event on. -/
def fromReset : List HostEvent → List HostEvent
  | [] => []
  | .byte _ :: es => fromReset es
  | .reset :: es => .reset :: es

/-- Bytes as host events, in channel order. -/
def sent (bytes : List Byte) : List HostEvent := bytes.map .byte

/-- What the block does next with its command channel. -/
inductive Arrival where
  /-- A complete packet stands at the head, legal or illegal (R40 cases (a), (b)); `rest` follows it. -/
  | packet (i : Instr) (rest : List HostEvent)
  /-- The next packet is incomplete and the host has asserted reset: the partial packet is discarded (R85). -/
  | reset (rest : List HostEvent)
  /-- The next packet has not fully arrived (R40 case (c)), or nothing has: the block waits. -/
  | hold
deriving DecidableEq, Repr

/-- Framing (R31, R40). Packets complete before a reset event are performed before it; the bytes of an incomplete
packet are dropped by it, and the first byte after it is read as an opcode byte (R85; log 4). -/
def arrival (channel : List HostEvent) : Arrival :=
  match decode (bytesArrived channel) with
  | .ok (i, rest) => .packet i (sent rest ++ fromReset channel)
  | .error _ =>
    match fromReset channel with
    | [] => .hold
    | _ :: rest => .reset rest

/-- The host sends bytes on the command channel (R89). -/
def State.hostSend (bytes : List Byte) (s : State) : State := { s with channel := s.channel ++ sent bytes }

/-- The host asserts the reset input, at any time, even inside a packet (R83, R85, R89). -/
def State.hostReset (s : State) : State := { s with channel := s.channel ++ [.reset] }

/-- The host reads the oldest response byte, if there is one (R89). -/
def State.hostRead (s : State) : Option (Byte × State) :=
  match s.responses with
  | [] => none
  | b :: rest => some (b, { s with responses := rest })

end Sys2Proof.Machine
end

