-- ==== Sys2Proof/Machine/MixingUnit.lean ====
section
/-! DEFINITION. The 64-bit accumulator mixing unit of spec/40_mixing_unit.md (R43 to R50) and the avalanche (R62):
pure functions, which read no register. -/

namespace Sys2Proof.Machine

open Sys2Proof.Config (primes)

/-- `rotl64(x, n)` for 1 ≤ n ≤ 63 (R45). -/
def rotl64 (x : Word) (n : Nat) : Word := (x <<< n) ||| (x >>> (64 - n))

/-- ROUND, the lane mixing primitive (R47). -/
def laneRound (acc input : Word) : Word := rotl64 (acc + input * primes.prime2) 31 * primes.prime1

/-- MERGE, the folding primitive (R48). -/
def laneMerge (acc lane : Word) : Word := (acc ^^^ laneRound 0#64 lane) * primes.prime1 + primes.prime4

/-- Word `k` of a 32-byte block: bytes 8k .. 8k+7, little-endian (R49). -/
def blockWord (block : List Byte) (k : Nat) : Word := le64 (slice block (8 * k) 8)

/-- STRIPE, the four-lane block operation (R49). -/
def stripe (a : Accumulators) (block : List Byte) : Accumulators where
  acc1 := laneRound a.acc1 (blockWord block 0)
  acc2 := laneRound a.acc2 (blockWord block 1)
  acc3 := laneRound a.acc3 (blockWord block 2)
  acc4 := laneRound a.acc4 (blockWord block 3)

/-- `h XOR (h >> n)`, a step of the avalanche (R46, R62). -/
def xorShift (h : Word) (n : Nat) : Word := h ^^^ (h >>> n)

/-- AVALANCHE (R62). -/
def avalanche (h : Word) : Word :=
  xorShift (xorShift (xorShift h 33 * primes.prime2) 29 * primes.prime3) 32

end Sys2Proof.Machine
end

