-- ==== Sys2Proof/Machine/Flags.lean ====
section
/-! DEFINITION. The status registers and the conditions computed from them: PHASE (R14), FAULT_CAUSE and its codes
(R15, R69), and the conditions of the common checks (R73). -/

namespace Sys2Proof.Machine

/-- PHASE as the bit the register holds (R14). -/
def phaseBit : Phase → BitVec 1
  | .uninit => 0#1
  | .ready => 1#1

/-- The three fault causes of rule R69. -/
inductive FaultCause where
  | illegalOpcode
  | uninit
  | lengthOverflow
deriving DecidableEq, Repr

/-- FAULT_CAUSE and STATUS when there is no fault (R69, NONE). -/
def codeNone : Byte := 0x00#8

/-- The code of a fault cause (R69). -/
def faultCode : FaultCause → Byte
  | .illegalOpcode => 0x01#8
  | .uninit => 0x02#8
  | .lengthOverflow => 0x03#8

/-- "A block with FAULT_CAUSE ≠ 0x00 is faulted" (R75). -/
def isFaulted (s : State) : Bool := s.faultCause != codeNone

/-- PHASE = UNINIT (R71). -/
def isUninit (s : State) : Bool := s.phase == .uninit

/-- TOTAL_LEN + L > 2^64 - 1, "the sum is taken on unbounded integers" (R72). -/
def lengthOverflows (s : State) (len : Nat) : Bool := decide (Config.maxLength < s.totalLen.toNat + len)

end Sys2Proof.Machine
end

