-- ==== Sys2Proof/Machine/Ops.lean ====
section
/-! DEFINITION. The operations every command is built from: responding (R39), the tail buffer (R7, R12, R13), taking
a fault (R74), refusing in a faulted block (R75), leaving a fault, which only reset does (R76, R83), and the common
checks in their order (R73). -/

namespace Sys2Proof.Machine

/-- `Respond(bytes)` (R7): append to the response channel; the block never waits for the host (R89). -/
def respond (bytes : List Byte) (s : State) : State := { s with responses := s.responses ++ bytes }

/-- The response of a command that succeeded and returns nothing: STATUS 0x00 alone (R39). -/
def respondOk (s : State) : State := respond [codeNone] s

/-- `TailRead(off, n)` (R7). -/
def tailRead (s : State) (off n : Nat) : List Byte := slice s.tailBuf off n

/-- `TailWrite(off, bytes)` (R7). Every use writes where the valid bytes end or, with none valid, at offset 0, so the
bytes written are followed by no valid byte (R53, R58). -/
def tailWrite (off : Nat) (bytes : List Byte) (s : State) : State :=
  { s with tailBuf := s.tailBuf.take off ++ bytes }

/-- `TAIL_USED <- n`: the bytes at offsets `n` and above hold no specified value from here on (R12). -/
def setTailUsed (n : Nat) (s : State) : State :=
  { s with tailUsed := BitVec.ofNat 5 n, tailBuf := s.tailBuf.take n }

/-- The valid bytes `TAIL_BUF[0 .. TAIL_USED)`. -/
def validTail (s : State) : List Byte := tailRead s 0 s.tailUsed.toNat

/-- `(ACC1, ACC2, ACC3, ACC4) <- a`. -/
def setAcc (a : Accumulators) (s : State) : State := { s with acc := a }

/-- `TOTAL_LEN <- TOTAL_LEN + len` (R53 step 1). -/
def addTotalLen (len : Nat) (s : State) : State := { s with totalLen := s.totalLen + BitVec.ofNat 64 len }

/-- Fault entry, `raise Fault(cause)` (R74): FAULT_CAUSE takes the code, no other register is written, and the
response is the one byte [cause]. There is no handler, vector, saved return point or mode change. -/
def raiseFault (cause : FaultCause) (s : State) : State :=
  respond [faultCode cause] { s with faultCause := faultCode cause }

/-- A packet in a faulted block (R75): no register is written, the response is [FAULT_CAUSE]. -/
def refusePacket (s : State) : State := respond [s.faultCause] s

/-- The reset input (R83): the reset values, in one step. The response channel keeps its bytes and no response is
emitted. It is the only way out of a fault (R76). -/
def resetBlock (s : State) : State :=
  { State.reset with channel := s.channel, responses := s.responses }

/-- Check 1 of R73: a faulted block refuses; otherwise `go`. -/
def unlessFaulted (s : State) (go : State) : State :=
  if isFaulted s then refusePacket s else go

/-- Check 3 of R73: F_UNINIT before the first INIT; otherwise `go`. -/
def whenReady (s : State) (go : State) : State :=
  if isUninit s then raiseFault .uninit s else go

/-- Check 4 of R73: F_LENGTH_OVERFLOW, before any byte is hashed (R72); otherwise `go`. -/
def whenLengthFits (s : State) (len : Nat) (go : State) : State :=
  if lengthOverflows s len then raiseFault .lengthOverflow s else go

end Sys2Proof.Machine
end

