-- ==== Sys2Proof/Machine/Digest.lean ====
section
/-! DEFINITION. DIGEST, the finalization engine (spec/43_digest.md, R59 to R63). -/

namespace Sys2Proof.Machine

open Sys2Proof.Config (primes blockSize)

/-- CONVERGE, digest step 1 (R59). The branch tests TOTAL_LEN, not TAIL_USED. -/
def converge (totalLen : Word) (a : Accumulators) : Word :=
  if blockSize ≤ totalLen.toNat then
    let h := rotl64 a.acc1 1 + rotl64 a.acc2 7 + rotl64 a.acc3 12 + rotl64 a.acc4 18
    laneMerge (laneMerge (laneMerge (laneMerge h a.acc1) a.acc2) a.acc3) a.acc4
  else a.acc3 + primes.prime5

/-- One turn of pass a of R61: an 8-byte lane. -/
def lanePass (h : Word) (lane : List Byte) : Word :=
  rotl64 (h ^^^ laneRound 0#64 (le64 lane)) 27 * primes.prime1 + primes.prime4

/-- Pass b of R61: a 4-byte word. -/
def wordPass (h : Word) (word : List Byte) : Word :=
  rotl64 (h ^^^ ((le32 word).setWidth 64 * primes.prime1)) 23 * primes.prime2 + primes.prime3

/-- One turn of pass c of R61: a single byte. -/
def bytePass (h : Word) (b : Byte) : Word :=
  rotl64 (h ^^^ (b.setWidth 64 * primes.prime5)) 11 * primes.prime1

/-- Passes b and c of R61 on the bytes pass a leaves. -/
def shortPasses (h : Word) (tail : List Byte) : Word :=
  if 4 ≤ tail.length then (tail.drop 4).foldl bytePass (wordPass h (slice tail 0 4))
  else tail.foldl bytePass h

/-- TAILPASSES, digest step 3 (R61), on the valid bytes of TAIL_BUF. -/
def tailPasses (h : Word) (tail : List Byte) : Word :=
  shortPasses (foldWhole 8 lanePass h tail) (remainder 8 tail)

/-- The four stages in order: converge, length fold (R60), tail passes, avalanche (R63). -/
def finalize (totalLen : Word) (a : Accumulators) (tail : List Byte) : Word :=
  avalanche (tailPasses (converge totalLen a + totalLen) tail)

/-- The digest of a state. -/
def digestOf (s : State) : Word := finalize s.totalLen s.acc (validTail s)

/-- The body of DIGEST (R63): it writes no register; STATUS 0x00 and the digest, little-endian (R39). -/
def performDigest (s : State) : State := respond (codeNone :: le64Bytes (digestOf s)) s

/-- DIGEST (R63): F_UNINIT (R71) in the order of R73. -/
def execDigest (s : State) : Host.Outcome State Fault Refusal :=
  .next (unlessFaulted s (whenReady s (performDigest s)))

end Sys2Proof.Machine
end

