-- ==== Sys2Proof/Machine/Illegal.lean ====
section
/-! DEFINITION. A packet whose opcode is not in the map (spec/60_exceptions.md, R70). -/

namespace Sys2Proof.Machine

/-- F_ILLEGAL_OPCODE, in either phase (R70); check 2 of R73. No fault records the opcode byte (R69). -/
def execIllegal (_op : Byte) (s : State) : Host.Outcome State Fault Refusal :=
  .next (unlessFaulted s (raiseFault .illegalOpcode s))

end Sys2Proof.Machine
end

