-- ==== Sys2Proof/Machine/Init.lean ====
section
/-! DEFINITION. INIT, construction from a seed (spec/41_init.md, R51). -/

namespace Sys2Proof.Machine

open Sys2Proof.Config (primes)

/-- The accumulators a seed gives: `A_0` of rule R57 (R51). -/
def initAcc (seed : Word) : Accumulators where
  acc1 := seed + primes.prime1 + primes.prime2
  acc2 := seed + primes.prime2
  acc3 := seed
  acc4 := seed - primes.prime1

/-- The body of INIT (R51), performed after the checks of R73. It discards whatever stream was in progress. -/
def performInit (seed : Word) (s : State) : State :=
  respondOk (setTailUsed 0
    { s with seed := seed, acc := initAcc seed, totalLen := 0#64, phase := .ready })

/-- INIT (R51): legal in both phases, refused only in a faulted block. -/
def execInit (seed : Word) (s : State) : Host.Outcome State Fault Refusal :=
  .next (unlessFaulted s (performInit seed s))

end Sys2Proof.Machine
end

