-- ==== Sys2Proof/Machine/Update.lean ====
section
/-! DEFINITION. UPDATE, the block processor and its tail buffer (spec/42_update.md, R53). -/

namespace Sys2Proof.Machine

open Sys2Proof.Config (blockSize)

/-- Step 2 of R53: no block can form, the data joins the tail. -/
def appendToTail (data : List Byte) (s : State) : State :=
  setTailUsed (s.tailUsed.toNat + data.length) (tailWrite s.tailUsed.toNat data s)

/-- How many bytes of the data complete the tail buffer: `n = 32 - TAIL_USED` in step 3 of R53, and none when the
tail is empty (step 3 is skipped). -/
def completionLength (s : State) : Nat :=
  if 0 < s.tailUsed.toNat then blockSize - s.tailUsed.toNat else 0

/-- Fold the full tail buffer and empty it (R53 step 3). -/
def foldTail (s : State) : State :=
  setTailUsed 0 (setAcc (stripe s.acc (tailRead s 0 blockSize)) s)

/-- Step 3 of R53: complete a partly filled tail buffer from the data, fold it, and empty it. -/
def completeTail (data : List Byte) (s : State) : State :=
  if 0 < s.tailUsed.toNat then
    foldTail (tailWrite s.tailUsed.toNat (slice data 0 (completionLength s)) s)
  else s

/-- Steps 4 and 5 of R53 on the input not yet consumed: fold its whole blocks directly, then buffer the remaining
0 to 31 bytes at offset 0 (C4). -/
def foldInput (input : List Byte) (s : State) : State :=
  setTailUsed (remainder blockSize input).length
    (tailWrite 0 (remainder blockSize input) (setAcc (foldWhole blockSize stripe s.acc input) s))

/-- The body of UPDATE (R53), performed after the checks of R73. -/
def performUpdate (data : List Byte) (s : State) : State :=
  respondOk
    (if s.tailUsed.toNat + data.length < blockSize then appendToTail data (addTotalLen data.length s)
     else foldInput (data.drop (completionLength s)) (completeTail data (addTotalLen data.length s)))

/-- UPDATE (R53): F_UNINIT (R71) and F_LENGTH_OVERFLOW (R72) in the order of R73. -/
def execUpdate (data : List Byte) (s : State) : Host.Outcome State Fault Refusal :=
  .next (unlessFaulted s (whenReady s (whenLengthFits s data.length (performUpdate data s))))

end Sys2Proof.Machine
end

