-- ==== Sys2Proof/Machine/Step.lean ====
section
/-! DEFINITION. One step of the block: a whole command, or a reset, as one atomic step (R4, R25, R28), or holding. -/

namespace Sys2Proof.Machine

/-- A step. The packet is consumed and its command performed (R31, R73); or reset is taken (R83, R85); or, with no
complete packet and no reset, the block holds: it performs nothing and emits nothing (R40). -/
def step (s : State) : Host.Outcome State Fault Refusal :=
  match arrival s.channel with
  | .packet i rest => exec i { s with channel := rest }
  | .reset rest => .next (resetBlock { s with channel := rest })
  | .hold => .next s

/-- `s` with the packet of an opcode-table word at the head of the command channel, where the next step takes its
command; whatever the channel held follows it (log 9, log 10). -/
def State.withFetchWord (s : State) (nbits w : Nat) : State :=
  { s with channel := sent (tablePacket nbits w) ++ s.channel }

end Sys2Proof.Machine
end

