-- ==== Sys2Proof/Machine/Assembler.lean ====
section
/-! DEFINITION. The assembly syntax (R41) and the pseudo-instructions (R42): a line of text, its lines as data, and
the bytes they emit. "The block sees only their expansions" (R42); nothing in `step` uses this file. -/

namespace Sys2Proof.Machine

/-- One line of assembly (R41, R42). -/
inductive AsmLine where
  | init (seed : Word)
  | update (data : List Byte)
  | digest
  /-- `.byte <v>`: one raw byte. -/
  | byte (v : Byte)
  | nop
  | hash (seed : Word) (data : List Byte)
  /-- `UPDATEN [<bytes>], n`: pieces of at most `n` bytes. -/
  | updaten (data : List Byte) (n : Nat)
deriving DecidableEq, Repr

/-- A sequence cut into consecutive pieces, "each piece as long as possible up to n bytes" (R42; log 13). -/
def pieces (n : Nat) (data : List Byte) : List (List Byte) :=
  (List.range ((data.length + (n - 1)) / n)).map (fun k => slice data (n * k) n)

/-- The commands a line expands to (R42); `.byte` emits a raw byte and is no command. -/
def expand : AsmLine → List Instr
  | .init seed => [.init seed]
  | .update data => [.update data]
  | .digest => [.digest]
  | .byte _ => []
  | .nop => [.update []]
  | .hash seed data => [.init seed, .update data, .digest]
  | .updaten data n => (pieces n data).map .update

/-- The bytes a line emits on the command channel (R41). -/
def assemble : AsmLine → List Byte
  | .byte v => [v]
  | .init seed => (expand (.init seed)).flatMap encode
  | .update data => (expand (.update data)).flatMap encode
  | .digest => (expand .digest).flatMap encode
  | .nop => (expand .nop).flatMap encode
  | .hash seed data => (expand (.hash seed data)).flatMap encode
  | .updaten data n => (expand (.updaten data n)).flatMap encode

/-- The tokens of a line. -/
inductive Token where
  | word (w : List Char)
  | num (n : Nat)
  | text (bytes : List Byte)
  | lbracket
  | rbracket
  | comma
  | dots
deriving DecidableEq, Repr

/-- The value of a hexadecimal digit, in either case. -/
def digitValue (c : Char) : Option Nat :=
  let c := c.toLower
  if '0' ≤ c ∧ c ≤ '9' then some (c.toNat - '0'.toNat)
  else if 'a' ≤ c ∧ c ≤ 'f' then some (c.toNat - 'a'.toNat + 10)
  else none

/-- Digits in a base, most significant first. -/
def digitsValue (base : Nat) : Nat → List Char → Option Nat
  | acc, [] => some acc
  | acc, c :: cs =>
    match digitValue c with
    | some d => if d < base then digitsValue base (acc * base + d) cs else none
    | none => none

/-- "Integer literals are hexadecimal with `0x` or decimal" (R6). -/
def literalValue : List Char → Option Nat
  | [] => none
  | '0' :: 'x' :: c :: cs => digitsValue 16 0 (c :: cs)
  | c :: cs => digitsValue 10 0 (c :: cs)

/-- `"text"` means the ASCII bytes of text (R41). -/
def asciiBytes : List Char → Option (List Byte)
  | [] => some []
  | c :: cs => if c.toNat < 128 then (asciiBytes cs).map (BitVec.ofNat 8 c.toNat :: ·) else none

/-- The tokens of a line; mnemonics are case-insensitive, so words are kept in lower case (R41). -/
def tokenize : Nat → List Char → Option (List Token)
  | 0, _ => none
  | _ + 1, [] => some []
  | n + 1, ' ' :: cs => tokenize n cs
  | n + 1, '[' :: cs => (tokenize n cs).map (.lbracket :: ·)
  | n + 1, ']' :: cs => (tokenize n cs).map (.rbracket :: ·)
  | n + 1, ',' :: cs => (tokenize n cs).map (.comma :: ·)
  | n + 1, '.' :: '.' :: cs => (tokenize n cs).map (.dots :: ·)
  | n + 1, '"' :: cs =>
    let body := cs.takeWhile (· != '"')
    match cs.drop body.length, asciiBytes body with
    | _ :: rest, some bytes => (tokenize n rest).map (.text bytes :: ·)
    | _, _ => none
  | n + 1, c :: cs =>
    let run := c :: cs.takeWhile Char.isAlphanum
    let rest := cs.drop (run.length - 1)
    if c.isDigit then
      match literalValue run with
      | some v => (tokenize n rest).map (.num v :: ·)
      | none => none
    else if c.isAlpha ∨ c = '.' then (tokenize n rest).map (.word (run.map Char.toLower) :: ·)
    else none

/-- A byte literal 0..255 (R41). -/
def byteLiteral (n : Nat) : Option (List Byte) := if n < 256 then some [BitVec.ofNat 8 n] else none

/-- `a..b`: the bytes a, a+1, ..., b, inclusive, each 0..255 (R41). With b below a it is refused (log 14, DESIGN
CHOICE). -/
def byteRange (a b : Nat) : Option (List Byte) :=
  if a ≤ b ∧ b < 256 then some ((List.range (b + 1 - a)).map (fun k => BitVec.ofNat 8 (a + k))) else none

/-- Two byte sequences one after the other, when both exist; `rest` carries the tokens that follow. -/
def joinBytes (first : Option (List Byte)) (more : Option (List Byte × List Token)) :
    Option (List Byte × List Token) :=
  match first, more with
  | some xs, some (ys, rest) => some (xs ++ ys, rest)
  | _, _ => none

/-- The items of a byte list, up to and with its closing bracket (R41). DESIGN CHOICE (log 14): R41 does not say whether
a range among other items keeps its brackets, so both `[1, 2..4]` and `[1, [2..4]]` are read, with the same bytes. -/
def parseItems : List Token → Option (List Byte × List Token)
  | .num a :: .dots :: .num b :: .comma :: ts => joinBytes (byteRange a b) (parseItems ts)
  | .num a :: .dots :: .num b :: .rbracket :: ts => joinBytes (byteRange a b) (some ([], ts))
  | .lbracket :: .num a :: .dots :: .num b :: .rbracket :: .comma :: ts => joinBytes (byteRange a b) (parseItems ts)
  | .lbracket :: .num a :: .dots :: .num b :: .rbracket :: .rbracket :: ts => joinBytes (byteRange a b) (some ([], ts))
  | .num a :: .comma :: ts => joinBytes (byteLiteral a) (parseItems ts)
  | .num a :: .rbracket :: ts => joinBytes (byteLiteral a) (some ([], ts))
  | .text bytes :: .comma :: ts => joinBytes (some bytes) (parseItems ts)
  | .text bytes :: .rbracket :: ts => some (bytes, ts)
  | _ => none

/-- A byte list operand: `[]`, a bracketed list, or a text on its own (R41; log 14). -/
def parseBytes : List Token → Option (List Byte × List Token)
  | .lbracket :: .rbracket :: ts => some ([], ts)
  | .lbracket :: ts => parseItems ts
  | .text bytes :: ts => some (bytes, ts)
  | _ => none

/-- A 64-bit unsigned literal (R41). -/
def seedLiteral (n : Nat) : Option Word := if n < 2 ^ 64 then some (BitVec.ofNat 64 n) else none

/-- A line whose operand is a byte list. -/
def parseData (ts : List Token) : Option (List Byte) :=
  match parseBytes ts with
  | some (data, []) => some data
  | _ => none

/-- A line from its tokens (R41, R42). -/
def parseTokens : List Token → Option AsmLine
  | [.word ['i', 'n', 'i', 't'], .num n] => (seedLiteral n).map .init
  | [.word ['d', 'i', 'g', 'e', 's', 't']] => some .digest
  | [.word ['n', 'o', 'p']] => some .nop
  | [.word ['.', 'b', 'y', 't', 'e'], .num n] => if n < 256 then some (.byte (BitVec.ofNat 8 n)) else none
  | .word ['u', 'p', 'd', 'a', 't', 'e'] :: ts => (parseData ts).map .update
  | .word ['h', 'a', 's', 'h'] :: .num n :: .comma :: ts =>
    match seedLiteral n, parseData ts with
    | some seed, some data => some (.hash seed data)
    | _, _ => none
  | .word ['u', 'p', 'd', 'a', 't', 'e', 'n'] :: ts =>
    match parseBytes ts with
    | some (data, [.comma, .num n]) => if n = 0 then none else some (.updaten data n)
    | _ => none
  | _ => none

/-- A line of assembly text (R41, R42; log 14), or none where the text is no line. -/
def parseLine (line : String) : Option AsmLine :=
  match tokenize (line.length + 1) line.toList with
  | some ts => parseTokens ts
  | none => none

end Sys2Proof.Machine
end

