-- ==== Sys2Proof/Safety.lean ====
section
/-! DEFINITION. The terms in which claims about the block are made: the tail buffer's well-formedness, the stream
characterisation (R57) and the premise `Clean` (R92), the hash as a function of seed and stream (R67), sequences of
commands, and what the end of a run is (R91). -/

namespace Sys2Proof.Machine

open Sys2Proof.Config (blockSize maxLength)

/-- TAIL_USED is the number of valid bytes in TAIL_BUF (R13). -/
def State.tailWf (s : State) : Bool := s.tailBuf.length == s.tailUsed.toNat

/-- FAULT_CAUSE holds one of the codes of rule R69; "the block never produces the codes 0x04 to 0xFF". -/
def State.statusLegal (s : State) : Bool :=
  s.faultCause == codeNone || s.faultCause == faultCode .illegalOpcode || s.faultCause == faultCode .uninit
    || s.faultCause == faultCode .lengthOverflow

/-- `A_j` of rule R57: the accumulators after the first `j` blocks of the stream. -/
def streamAcc (seed : Word) (stream : List Byte) : Nat → Accumulators
  | 0 => initAcc seed
  | j + 1 => stripe (streamAcc seed stream j) (slice stream (blockSize * j) blockSize)

/-- The last `N mod 32` bytes of the stream, `S[32k .. N)` with k = floor(N / 32) (R57). -/
def streamTail (stream : List Byte) : List Byte := stream.drop (blockSize * (stream.length / blockSize))

/-- The data registers are those of rule R57 for a seed and a stream. -/
structure Streamed (seed : Word) (stream : List Byte) (s : State) : Prop where
  seed_eq : s.seed = seed
  totalLen_eq : s.totalLen = BitVec.ofNat 64 stream.length
  tailUsed_eq : s.tailUsed.toNat = stream.length % blockSize
  tailBuf_eq : s.tailBuf = streamTail stream
  acc_eq : s.acc = streamAcc seed stream (stream.length / blockSize)

/-- The launch premise `Clean(s, S)` (R92). -/
structure Clean (seed : Word) (stream : List Byte) (s : State) : Prop where
  length_le : stream.length ≤ maxLength
  ready : s.phase = .ready
  noFault : s.faultCause = codeNone
  streamed : Streamed seed stream s

/-- `XXH64(s, S)` (R67): the rules R59 to R62 applied to the data registers of rule R57. -/
def xxh64 (seed : Word) (stream : List Byte) : Word :=
  finalize (BitVec.ofNat 64 stream.length) (streamAcc seed stream (stream.length / blockSize)) (streamTail stream)

/-- The invariant of the block: the tail buffer is well formed, FAULT_CAUSE holds a code of R69, and in READY the data
registers are those of R57 for the seed of the last INIT and some stream the counter can hold (R11, R13, R57). -/
structure Inv (s : State) : Prop where
  tail : s.tailWf = true
  status : s.statusLegal = true
  stream : s.phase = .ready → ∃ stream, stream.length ≤ maxLength ∧ Streamed s.seed stream s

/-- Commands performed one after the other, each on the state the one before it left (R28). -/
def execAll : List Instr → State → Host.Outcome State Fault Refusal
  | [], s => .next s
  | i :: is, s =>
    match exec i s with
    | .next t => execAll is t
    | .fault r => .fault r
    | .refused r => .refused r

/-- The data a command adds to the stream. -/
def streamOf : Instr → List Byte
  | .init _ => []
  | .update data => data
  | .digest => []
  | .illegal _ => []

/-- A command that continues the current stream: an UPDATE or a DIGEST. -/
def continuesStream : Instr → Bool
  | .init _ => false
  | .update _ => true
  | .digest => true
  | .illegal _ => false

/-- A run has ended (R91): every byte has been consumed and no packet is part-way. -/
def State.ended (s : State) : Bool := s.channel.isEmpty

/-- A final state: the run has ended in it and it is not faulted. "A model must treat a faulted state as never final"
(R75); a run that ends faulted is "faulted, not good" (R91). -/
def State.final (s : State) : Bool := s.ended && !isFaulted s

/-- The block holds with part of a packet received: a stuck state, not an end of run (R40, R89). -/
def State.stuck (s : State) : Bool := !s.channel.isEmpty && (arrival s.channel == .hold)

/-- A good end of a run (R91): neither stuck nor faulted, so a final state. -/
def State.good (s : State) : Bool := s.final

/-- A good outcome of the run of `n` steps from `s`: it ends in a final state and reaches no faulted state on the way,
since "a run that reaches it refutes any claim of a good outcome" (R75; log 18). -/
def GoodRun (n : Nat) (s : State) : Prop :=
  (∃ t : State, Host.Core.run core n s = .next t ∧ t.good = true) ∧
    ∀ (k : Nat) (t : State), k ≤ n → Host.Core.run core k s = .next t → isFaulted t = false

/-- The registers of rule R8, without the channels: what "final registers" means in R91. -/
def sameRegisters (s t : State) : Prop :=
  s.seed = t.seed ∧ s.acc = t.acc ∧ s.totalLen = t.totalLen ∧ s.tailBuf = t.tailBuf ∧ s.tailUsed = t.tailUsed ∧
    s.phase = t.phase ∧ s.faultCause = t.faultCause

end Sys2Proof.Machine
end

