-- ==== Sys2Proof/Certificates/Slice0/Obligations.lean ====
section
/-! DEFINITION. The statements about the block for the provers: each formalises rules of the spec or is derived from
them; OBLIGATIONS.json lists them. The mixing constants are those of Config (R43; log 3, PRESUMED). Where a statement
says that a reset event behind a complete packet is left on the channel while the packet is performed, that order is
the model's choice (log 4, DESIGN CHOICE), no rule of the spec. -/

open Sys2Proof Sys2Proof.Machine
open Sys2Proof.Config (primes blockSize maxLength)

/-! ### Encoding (spec/30_encoding.md) -/

/-- Every bit of every field has a meaning (R36): for every well-formed command, with any operand and any bytes after
its packet, decoding its encoding gives it back and stops where the packet ends. -/
def Obligations.DecodeOfEncodeIsTheCommand : Prop :=
  ∀ (i : Instr) (rest : List Byte), i.wellFormed = true → decode (encode i ++ rest) = .ok (i, rest)

/-- The other direction: a byte sequence on which a command decodes begins with that command's packet, and the command
is well formed. So no two commands share a packet (R31, R35, R38). -/
def Obligations.DecodedBytesAreThePacket : Prop :=
  ∀ (bs rest : List Byte) (i : Instr), decode bs = .ok (i, rest) → i.wellFormed = true ∧ bs = encode i ++ rest

/-- R40: the decoder waits exactly on the proper beginnings of packets. -/
def Obligations.DecoderWaitsExactlyOnPacketBeginnings : Prop :=
  ∀ bs : List Byte, (∃ e, decode bs = .error e) ↔
    ∃ (i : Instr) (missing : List Byte), i.wellFormed = true ∧ missing ≠ [] ∧ encode i = bs ++ missing

/-- R32: bytes 1..8 of an INIT packet are s[7:0] up to s[63:56], and every value of the seed is legal. -/
def Obligations.InitSeedFieldIsLittleEndian : Prop :=
  (∀ (b1 b2 b3 b4 b5 b6 b7 b8 : Byte) (rest : List Byte),
    decode ([0x01#8, b1, b2, b3, b4, b5, b6, b7, b8] ++ rest) =
      .ok (.init (b8 ++ b7 ++ b6 ++ b5 ++ b4 ++ b3 ++ b2 ++ b1), rest)) ∧
  ∀ seed : Word, (Instr.init seed).wellFormed = true

/-- The UPDATE packet (R33): bytes 1..8 are L, little-endian, and the L bytes after them are the data in stream order. -/
def Obligations.UpdateLengthFieldCountsTheData : Prop :=
  ∀ (b1 b2 b3 b4 b5 b6 b7 b8 : Byte) (data rest : List Byte),
    data.length = (b8 ++ b7 ++ b6 ++ b5 ++ b4 ++ b3 ++ b2 ++ b1).toNat →
    decode ([0x02#8, b1, b2, b3, b4, b5, b6, b7, b8] ++ data ++ rest) = .ok (.update data, rest)

/-- R36 and the one-byte formats: 0x00 and 0x04 to 0xFF are one-byte illegal packets; 0x03 is DIGEST (R34). -/
def Obligations.OneByteOpcodesDecode : Prop :=
  (∀ (op : Byte) (rest : List Byte), op = 0x00#8 ∨ 0x04 ≤ op.toNat → decode (op :: rest) = .ok (.illegal op, rest)) ∧
  ∀ rest : List Byte, decode (0x03#8 :: rest) = .ok (.digest, rest)

/-- A few packets written out in spec/95_test_vectors.md (V-ENC-3, 5, 6, 8, 12) decode to their commands. The last four
clauses read the words of the four rows of spec/opcode_table.json as packets: that every bit above the table's is 0,
so that the INIT row decodes to seed 0 and the UPDATE row to no data, is the model's choice (log 10, DESIGN CHOICE). -/
def Obligations.WrittenPacketsDecode : Prop :=
  decode [0x01#8, 0xEF#8, 0xCD#8, 0xAB#8, 0x89#8, 0x67#8, 0x45#8, 0x23#8, 0x01#8] =
    .ok (.init 0x0123456789ABCDEF#64, []) ∧
  decode [0x02#8, 0#8, 0#8, 0#8, 0#8, 0#8, 0#8, 0#8, 0#8] = .ok (.update [], []) ∧
  decode [0x02#8, 1#8, 0#8, 0#8, 0#8, 0#8, 0#8, 0#8, 0#8, 0x2A#8] = .ok (.update [42#8], []) ∧
  decode [0x03#8] = .ok (.digest, []) ∧ decode [0x00#8] = .ok (.illegal 0#8, []) ∧
  decodeTableWord 8 0x01 = some (.init 0#64) ∧ decodeTableWord 8 0x02 = some (.update []) ∧
  decodeTableWord 8 0x03 = some .digest ∧ decodeTableWord 8 0x04 = some (.illegal 4#8)

/-- R21: byte k of a word counts 2^(8k), for LE64 and for LE32. -/
def Obligations.WordsAreLittleEndian : Prop :=
  (∀ b0 b1 b2 b3 b4 b5 b6 b7 : Byte, (le64 [b0, b1, b2, b3, b4, b5, b6, b7]).toNat =
    b0.toNat + b1.toNat * 2 ^ 8 + b2.toNat * 2 ^ 16 + b3.toNat * 2 ^ 24 + b4.toNat * 2 ^ 32 + b5.toNat * 2 ^ 40
      + b6.toNat * 2 ^ 48 + b7.toNat * 2 ^ 56) ∧
  ∀ b0 b1 b2 b3 : Byte, (le32 [b0, b1, b2, b3]).toNat =
    b0.toNat + b1.toNat * 2 ^ 8 + b2.toNat * 2 ^ 16 + b3.toNat * 2 ^ 24

/-- Lines of assembly text emit the bytes spec/95_test_vectors.md gives them (R41, R42; V-ENC-3, 5, 6, 8, 10, 12). What
the text may look like beyond R41's examples is the model's choice (log 14, DESIGN CHOICE). -/
def Obligations.AssemblyTextEmitsTheWrittenBytes : Prop :=
  (parseLine "INIT 0x0123456789ABCDEF").map assemble =
    some [0x01#8, 0xEF#8, 0xCD#8, 0xAB#8, 0x89#8, 0x67#8, 0x45#8, 0x23#8, 0x01#8] ∧
  (parseLine "NOP").map assemble = some [0x02#8, 0#8, 0#8, 0#8, 0#8, 0#8, 0#8, 0#8, 0#8] ∧
  (parseLine "UPDATE [42]").map assemble = some [0x02#8, 1#8, 0#8, 0#8, 0#8, 0#8, 0#8, 0#8, 0#8, 0x2A#8] ∧
  (parseLine "DIGEST").map assemble = some [0x03#8] ∧
  (parseLine "HASH 0, [42]").map assemble = some
    [0x01#8, 0#8, 0#8, 0#8, 0#8, 0#8, 0#8, 0#8, 0#8, 0x02#8, 1#8, 0#8, 0#8, 0#8, 0#8, 0#8, 0#8, 0#8, 0x2A#8, 0x03#8] ∧
  (parseLine ".byte 0x00").map assemble = some [0x00#8] ∧
  (parseLine "UPDATEN [0..99], 32").map (fun l => (expand l).map (fun i => (streamOf i).length)) =
    some [32, 32, 32, 4]

/-! ### The mixing unit (spec/40_mixing_unit.md) and the avalanche (R62) -/

/-- R43's table and R44's corner cases: the constants, each odd, and their wrapped sum and negation. The values are the
model's supplied knowledge (log 3, PRESUMED). -/
def Obligations.MixingConstantsAreTheTable : Prop :=
  primes = ⟨0x9E3779B185EBCA87#64, 0xC2B2AE3D27D4EB4F#64, 0x165667B19E3779F9#64, 0x85EBCA77C2B2AE63#64,
    0x27D4EB2F165667C5#64⟩ ∧
  primes.prime1.getLsbD 0 = true ∧ primes.prime2.getLsbD 0 = true ∧ primes.prime3.getLsbD 0 = true ∧
  primes.prime4.getLsbD 0 = true ∧ primes.prime5.getLsbD 0 = true ∧
  primes.prime1 + primes.prime2 = 0x60EA27EEADC0B5D6#64 ∧ 0#64 - primes.prime1 = 0x61C8864E7A143579#64

/-- R45: the rotation's formula, where each bit goes, and the rule's examples. -/
def Obligations.RotationMovesEachBit : Prop :=
  (∀ (x : Word) (n : Nat), 1 ≤ n → n ≤ 63 →
    rotl64 x n = (x <<< n) ||| (x >>> (64 - n)) ∧
    (∀ i, i < 64 → (rotl64 x n).getLsbD ((i + n) % 64) = x.getLsbD i) ∧
    rotl64 0#64 n = 0#64 ∧ rotl64 0xFFFFFFFFFFFFFFFF#64 n = 0xFFFFFFFFFFFFFFFF#64) ∧
  rotl64 0x8000000000000001#64 1 = 3#64 ∧ rotl64 0x0123456789ABCDEF#64 31 = 0xC4D5E6F78091A2B3#64

/-- R47: ROUND's formula, its corner cases and its worked example. -/
def Obligations.RoundComputesItsFormula : Prop :=
  (∀ acc input : Word, laneRound acc input = rotl64 (acc + input * primes.prime2) 31 * primes.prime1) ∧
  laneRound 0#64 0#64 = 0#64 ∧ laneRound 0#64 1#64 = 0x7F0E345BE3649CD2#64 ∧
  laneRound 1#64 0#64 = 0xC2F5E54380000000#64 ∧
  laneRound 0xFFFFFFFFFFFFFFFF#64 0xFFFFFFFFFFFFFFFF#64 = 0xE2BA51F296AF98A7#64 ∧
  laneRound 0#64 0x0706050403020100#64 = 0x44EA5FC3244426D1#64

/-- R48: MERGE's formula and its corner cases. -/
def Obligations.MergeComputesItsFormula : Prop :=
  (∀ acc lane : Word, laneMerge acc lane = ((acc ^^^ laneRound 0#64 lane) * primes.prime1) + primes.prime4) ∧
  laneMerge 0#64 0#64 = 0x85EBCA77C2B2AE63#64 ∧ laneMerge 0#64 1#64 = 0x9D049A611F451521#64 ∧
  laneMerge 0xFFFFFFFFFFFFFFFF#64 0#64 = 0xE7B450C63CC6E3DC#64 ∧
  laneMerge 1#64 0xFFFFFFFFFFFFFFFF#64 = 0xA812A429A62129ED#64

/-- R49: each lane of STRIPE mixes its own accumulator with its own word, and the rule's worked example. -/
def Obligations.StripeMixesEachLaneAlone : Prop :=
  (∀ (a : Accumulators) (w0 w1 w2 w3 : Word),
    stripe a (le64Bytes w0 ++ le64Bytes w1 ++ le64Bytes w2 ++ le64Bytes w3) =
      ⟨laneRound a.acc1 w0, laneRound a.acc2 w1, laneRound a.acc3 w2, laneRound a.acc4 w3⟩) ∧
  (∀ block : List Byte, block.length = 32 →
    ∃ w0 w1 w2 w3 : Word, block = le64Bytes w0 ++ le64Bytes w1 ++ le64Bytes w2 ++ le64Bytes w3) ∧
  stripe ⟨0x60EA27EEADC0B5D6#64, 0xC2B2AE3D27D4EB4F#64, 0#64, 0x61C8864E7A143579#64⟩
      ((List.range 32).map (BitVec.ofNat 8)) =
    ⟨0xF4B53B57406B5E99#64, 0xC3D34B511FC32561#64, 0xCB26C007C8A1553F#64, 0x9A44D001A7F91C07#64⟩

/-- R50: ROUND is a bijection in each argument and MERGE in its accumulator; the zero-input values. -/
def Obligations.MixingIsBijective : Prop :=
  (∀ input : Word, Function.Bijective (fun acc => laneRound acc input)) ∧
  (∀ acc : Word, Function.Bijective (fun input => laneRound acc input)) ∧
  (∀ lane : Word, Function.Bijective (fun acc => laneMerge acc lane)) ∧
  laneRound 0#64 0#64 = 0#64 ∧ ∀ acc : Word, laneMerge acc 0#64 = acc * primes.prime1 + primes.prime4

/-- R62: AVALANCHE's five steps, that it is a bijection, and its corner cases. -/
def Obligations.AvalancheIsBijective : Prop :=
  (∀ h h1 h2 h3 h4 : Word, h1 = h ^^^ (h >>> 33) → h2 = h1 * primes.prime2 → h3 = h2 ^^^ (h2 >>> 29) →
    h4 = h3 * primes.prime3 → avalanche h = h4 ^^^ (h4 >>> 32)) ∧
  Function.Bijective avalanche ∧
  avalanche 0#64 = 0#64 ∧ avalanche 1#64 = 0x283A72A5B9AB93D3#64 ∧
  avalanche 0xFFFFFFFFFFFFFFFF#64 = 0x100AB62DAADD9289#64 ∧
  avalanche 0x8000000000000000#64 = 0x21BCCFD08328A27E#64

/-! ### INIT (spec/41_init.md) -/

/-- R51: in a block that is not faulted, in either phase, INIT writes every data register and PHASE, leaves FAULT_CAUSE
and the command channel, and responds 00; in a faulted block it is refused. No byte of TAIL_BUF is valid after it. -/
def Obligations.InitLoadsTheRegisters : Prop :=
  ∀ (seed : Word) (s : State),
    encode (.init seed) = 0x01#8 :: le64Bytes seed ∧
    (s.faultCause = 0x00#8 → exec (.init seed) s = .next { s with
      seed := seed
      acc := ⟨seed + primes.prime1 + primes.prime2, seed + primes.prime2, seed, seed - primes.prime1⟩
      totalLen := 0#64
      tailBuf := []
      tailUsed := 0#5
      phase := .ready
      responses := s.responses ++ [0x00#8] }) ∧
    (s.faultCause ≠ 0x00#8 → exec (.init seed) s = .next { s with responses := s.responses ++ [s.faultCause] })

/-- R52: right after INIT s, DIGEST returns AVALANCHE(s + PRIME5); for seed 0 that is the source's empty digest. -/
def Obligations.SeedFixesTheEmptyDigest : Prop :=
  (∀ (seed : Word) (s : State), s.faultCause = 0x00#8 → ∃ t, exec (.init seed) s = .next t ∧
    exec .digest t =
      .next { t with responses := t.responses ++ 0x00#8 :: le64Bytes (avalanche (seed + primes.prime5)) }) ∧
  avalanche (0#64 + primes.prime5) = 0xEF46DB3751D8E999#64

/-! ### UPDATE (spec/42_update.md) -/

/-- UPDATE in one equation (R53): its fast path, tail completion, direct blocks and remainder together fold the whole
32-byte blocks of the old tail followed by the data, keep the rest as the new tail, add L to TOTAL_LEN, and write no
other register. -/
def Obligations.UpdateFoldsTailThenData : Prop :=
  ∀ (data : List Byte) (s : State), s.tailWf = true → s.faultCause = 0x00#8 → s.phase = .ready →
    s.totalLen.toNat + data.length ≤ 2 ^ 64 - 1 →
    exec (.update data) s = .next { s with
      totalLen := s.totalLen + BitVec.ofNat 64 data.length
      acc := foldWhole 32 stripe s.acc (s.tailBuf ++ data)
      tailBuf := remainder 32 (s.tailBuf ++ data)
      tailUsed := BitVec.ofNat 5 ((s.tailUsed.toNat + data.length) % 32)
      responses := s.responses ++ [0x00#8] }

/-- R53 by its own steps, in a block that passes the checks of R73: (step 2) when no block can form the data joins the
tail; otherwise (step 3) a partly filled tail is completed with the first n = 32 - TAIL_USED data bytes and folded,
(step 4) the whole blocks of what is left are folded from the input, and (step 5) the rest is buffered at offset 0. -/
def Obligations.UpdateFollowsItsSteps : Prop :=
  ∀ (data : List Byte) (s : State), s.tailWf = true → s.faultCause = 0x00#8 → s.phase = .ready →
    s.totalLen.toNat + data.length ≤ 2 ^ 64 - 1 →
    encode (.update data) = 0x02#8 :: (le64Bytes (BitVec.ofNat 64 data.length) ++ data) ∧
    (s.tailUsed.toNat + data.length < 32 → exec (.update data) s = .next { s with
      totalLen := s.totalLen + BitVec.ofNat 64 data.length
      tailBuf := s.tailBuf ++ data
      tailUsed := BitVec.ofNat 5 (s.tailUsed.toNat + data.length)
      responses := s.responses ++ [0x00#8] }) ∧
    (32 ≤ s.tailUsed.toNat + data.length → ∀ (n : Nat) (first : Accumulators),
      (s.tailUsed.toNat = 0 → n = 0 ∧ first = s.acc) →
      (0 < s.tailUsed.toNat → n = 32 - s.tailUsed.toNat ∧ first = stripe s.acc (s.tailBuf ++ data.take n)) →
      exec (.update data) s = .next { s with
        totalLen := s.totalLen + BitVec.ofNat 64 data.length
        acc := foldChunks 32 stripe ((data.length - n) / 32) first (data.drop n)
        tailBuf := data.drop (n + 32 * ((data.length - n) / 32))
        tailUsed := BitVec.ofNat 5 ((data.length - n) % 32)
        responses := s.responses ++ [0x00#8] })

/-- UPDATE folds exactly floor((TAIL_USED + L) / 32) blocks, in stream order, none twice and none skipped (R53 corner
case (f), R90): block j of the old tail followed by the data is folded j-th. -/
def Obligations.UpdateFoldsEachBlockOnce : Prop :=
  ∀ (data : List Byte) (s t : State), s.tailWf = true → s.faultCause = 0x00#8 → s.phase = .ready →
    s.totalLen.toNat + data.length ≤ 2 ^ 64 - 1 → exec (.update data) s = .next t →
    ∃ accs : Nat → Accumulators, accs 0 = s.acc ∧
      (∀ j, j < (s.tailUsed.toNat + data.length) / 32 →
        accs (j + 1) = stripe (accs j) (((s.tailBuf ++ data).drop (32 * j)).take 32)) ∧
      t.acc = accs ((s.tailUsed.toNat + data.length) / 32)

/-- R54: after an UPDATE that does not fault, TAIL_USED is in 0..31, it is (TAIL_USED + L) mod 32, and it counts the
valid bytes. -/
def Obligations.TailUsedStaysBelowThirtyTwo : Prop :=
  ∀ (data : List Byte) (s t : State), s.tailWf = true → s.phase = .ready →
    exec (.update data) s = .next t → t.faultCause = 0x00#8 →
    t.tailUsed.toNat < 32 ∧ t.tailUsed.toNat = (s.tailUsed.toNat + data.length) % 32 ∧
      t.tailBuf.length = t.tailUsed.toNat

/-- R55: `UPDATE []` in READY with no fault changes no register and responds 00; in UNINIT it faults. -/
def Obligations.EmptyUpdateChangesNothing : Prop :=
  ∀ s : State, s.faultCause = 0x00#8 →
    (s.tailWf = true → s.phase = .ready →
      exec (.update []) s = .next { s with responses := s.responses ++ [0x00#8] }) ∧
    (s.phase = .uninit →
      exec (.update []) s = .next { s with faultCause := 0x02#8, responses := s.responses ++ [0x02#8] })

/-- R56, chunking invariance: any split of a stream into consecutive pieces, any of them empty, leaves the same state as
one UPDATE of the whole (but for the number of responses), and so the same digest. -/
def Obligations.ChunkingDoesNotMatter : Prop :=
  ∀ (chunks : List (List Byte)) (s : State), s.tailWf = true → s.faultCause = 0x00#8 → s.phase = .ready →
    s.totalLen.toNat + chunks.flatten.length ≤ 2 ^ 64 - 1 →
    ∃ t u, execAll (chunks.map .update) s = .next t ∧ exec (.update chunks.flatten) s = .next u ∧
      t = { u with responses := s.responses ++ List.replicate chunks.length 0x00#8 } ∧ digestOf t = digestOf u

/-- One UPDATE takes `Clean(s, S)` to `Clean(s, S ‖ D)` (R57, R92). -/
def Obligations.UpdateExtendsTheStream : Prop :=
  ∀ (seed : Word) (stream data : List Byte) (s : State), Clean seed stream s →
    stream.length + data.length ≤ 2 ^ 64 - 1 →
    ∃ t, exec (.update data) s = .next t ∧ Clean seed (stream ++ data) t ∧ t.channel = s.channel ∧
      t.responses = s.responses ++ [0x00#8]

/-- R57 and R92: after INIT s and any UPDATEs (and DIGESTs) whose data concatenate to the stream S, the block satisfies
`Clean(s, S)`: TOTAL_LEN, TAIL_USED, the tail and the accumulators are those of R57. -/
def Obligations.StreamDeterminesTheRegisters : Prop :=
  ∀ (seed : Word) (s : State) (cmds : List Instr), s.faultCause = 0x00#8 →
    (∀ c ∈ cmds, continuesStream c = true) → (cmds.flatMap streamOf).length ≤ 2 ^ 64 - 1 →
    ∃ t, execAll (.init seed :: cmds) s = .next t ∧ Clean seed (cmds.flatMap streamOf) t

/-- TOTAL_LEN never wraps (R11): an UPDATE that does not fault adds exactly L to it, on unbounded integers, and one that
faults or is refused leaves it; INIT sets it to 0. -/
def Obligations.TotalLengthCountsEveryByte : Prop :=
  (∀ (data : List Byte) (s t : State), s.tailWf = true → exec (.update data) s = .next t →
    (t.faultCause = 0x00#8 → t.totalLen.toNat = s.totalLen.toNat + data.length) ∧
    (t.faultCause ≠ 0x00#8 → t.totalLen = s.totalLen)) ∧
  ∀ (seed : Word) (s : State), s.faultCause = 0x00#8 → ∃ t, exec (.init seed) s = .next t ∧ t.totalLen = 0#64

/-! ### DIGEST (spec/43_digest.md) -/

/-- R63 and the length fold R60: in READY with no fault DIGEST converges, adds TOTAL_LEN, runs the tail passes and the
avalanche, writes no register and responds STATUS and the digest, least significant byte first; in UNINIT it raises
F_UNINIT, and in a faulted block it is refused. -/
def Obligations.DigestRespondsWithTheHash : Prop :=
  ∀ s : State, encode .digest = [0x03#8] ∧
    (s.tailWf = true → s.faultCause = 0x00#8 → s.phase = .ready → ∃ h : Word,
      h = avalanche (tailPasses (converge s.totalLen s.acc + s.totalLen) s.tailBuf) ∧
      exec .digest s = .next { s with responses := s.responses ++
        [0x00#8, h.extractLsb' 0 8, h.extractLsb' 8 8, h.extractLsb' 16 8, h.extractLsb' 24 8, h.extractLsb' 32 8,
          h.extractLsb' 40 8, h.extractLsb' 48 8, h.extractLsb' 56 8] }) ∧
    (s.faultCause = 0x00#8 → s.phase = .uninit →
      exec .digest s = .next { s with faultCause := 0x02#8, responses := s.responses ++ [0x02#8] }) ∧
    (s.faultCause ≠ 0x00#8 → exec .digest s = .next { s with responses := s.responses ++ [s.faultCause] })

/-- R59: both branches of CONVERGE, the branch testing TOTAL_LEN, and the rule's examples. -/
def Obligations.ConvergeTestsTotalLength : Prop :=
  (∀ (totalLen : Word) (a : Accumulators),
    (32 ≤ totalLen.toNat → ∃ h0 h1 h2 h3 : Word,
      h0 = rotl64 a.acc1 1 + rotl64 a.acc2 7 + rotl64 a.acc3 12 + rotl64 a.acc4 18 ∧
      h1 = laneMerge h0 a.acc1 ∧ h2 = laneMerge h1 a.acc2 ∧ h3 = laneMerge h2 a.acc3 ∧
      converge totalLen a = laneMerge h3 a.acc4) ∧
    (totalLen.toNat < 32 → converge totalLen a = a.acc3 + primes.prime5)) ∧
  converge 0#64 (initAcc 0#64) = 0x27D4EB2F165667C5#64 ∧
  converge 32#64 (streamAcc 0#64 ((List.range 32).map (BitVec.ofNat 8)) 1) = 0xC845DBC88C411C2D#64 ∧
  converge 100#64 (streamAcc 0#64 ((List.range 100).map (BitVec.ofNat 8)) 3) = 0xB5A16E943D14D721#64

/-- R61: the valid tail bytes are consumed in order, whole 8-byte lanes first, then at most one 4-byte word, then the
remaining 0 to 3 bytes, each with its own update of h. -/
def Obligations.TailPassesConsumeInOrder : Prop :=
  ∀ (h : Word) (lanes : List (List Byte)) (word bytes : List Byte),
    (∀ lane ∈ lanes, lane.length = 8) → word = [] ∨ word.length = 4 → bytes.length < 4 →
    ∃ ha hb : Word,
      ha = lanes.foldl (fun h lane =>
        rotl64 (h ^^^ laneRound 0#64 (le64 lane)) 27 * primes.prime1 + primes.prime4) h ∧
      (word = [] → hb = ha) ∧
      (word ≠ [] → hb = rotl64 (ha ^^^ ((le32 word).setWidth 64 * primes.prime1)) 23 * primes.prime2
        + primes.prime3) ∧
      tailPasses h (lanes.flatten ++ word ++ bytes) =
        bytes.foldl (fun h b => rotl64 (h ^^^ (b.setWidth 64 * primes.prime5)) 11 * primes.prime1) hb

/-- R64: DIGEST's only effect is its response, and repeated DIGESTs return the same digest. -/
def Obligations.DigestIsAPureRead : Prop :=
  ∀ (n : Nat) (s : State), s.faultCause = 0x00#8 → s.phase = .ready → ∃ response : List Byte,
    response.length = 9 ∧ execAll (List.replicate n .digest) s =
      .next { s with responses := s.responses ++ (List.replicate n response).flatten }

/-- R65: a DIGEST in the middle does not cut the stream; the first returns the hash of D1, the second that of D1 ‖ D2. -/
def Obligations.MidStreamDigestDoesNotCutTheStream : Prop :=
  ∀ (seed : Word) (d1 d2 : List Byte) (s : State), s.faultCause = 0x00#8 → (d1 ++ d2).length ≤ 2 ^ 64 - 1 →
    ∃ t u, execAll [.init seed, .update d1, .digest, .update d2, .digest] s = .next t ∧
      execAll [.init seed, .update (d1 ++ d2), .digest] s = .next u ∧ sameRegisters t u ∧
      t.responses = s.responses ++ [0x00#8, 0x00#8] ++ (0x00#8 :: le64Bytes (xxh64 seed d1)) ++ [0x00#8]
        ++ (0x00#8 :: le64Bytes (xxh64 seed (d1 ++ d2))) ∧
      u.responses = s.responses ++ [0x00#8, 0x00#8] ++ (0x00#8 :: le64Bytes (xxh64 seed (d1 ++ d2)))

/-- R66: while fewer than 32 bytes have come since INIT, ACC3 is the seed and CONVERGE gives SEED + PRIME5. -/
def Obligations.ShortBranchStartsFromTheSeed : Prop :=
  ∀ (seed : Word) (stream : List Byte) (s : State), Clean seed stream s → s.totalLen.toNat < 32 →
    s.acc.acc3 = s.seed ∧ converge s.totalLen s.acc = s.seed + primes.prime5

/-- R67: whatever the state before INIT, the chunking and the DIGESTs in between, DIGEST returns a function of the seed
and the stream alone. Nothing is said of how digests of different seeds compare (I8). -/
def Obligations.DigestDependsOnSeedAndStreamAlone : Prop :=
  ∀ (seed : Word) (s : State) (cmds : List Instr), s.faultCause = 0x00#8 →
    (∀ c ∈ cmds, continuesStream c = true) → (cmds.flatMap streamOf).length ≤ 2 ^ 64 - 1 →
    ∃ t, execAll (.init seed :: cmds) s = .next t ∧
      exec .digest t = .next { t with
        responses := t.responses ++ 0x00#8 :: le64Bytes (xxh64 seed (cmds.flatMap streamOf)) }

/-- The source's three vectors W1 to W3, performed from the power-on state (spec/95_test_vectors.md, part 1). -/
def Obligations.SourceVectorsReproduced : Prop :=
  (∃ t, execAll [.init 0#64, .digest] State.reset = .next t ∧
    t.responses = [0x00#8, 0x00#8, 0x99#8, 0xE9#8, 0xD8#8, 0x51#8, 0x37#8, 0xDB#8, 0x46#8, 0xEF#8]) ∧
  (∃ t, execAll [.init 0#64, .update [42#8], .digest] State.reset = .next t ∧
    t.responses = [0x00#8, 0x00#8, 0x00#8, 0xE4#8, 0x3A#8, 0xB0#8, 0xBE#8, 0xCE#8, 0xDE#8, 0x9E#8, 0x0A#8]) ∧
  ∃ t, execAll [.init 0#64, .update ((List.range 100).map (BitVec.ofNat 8)), .digest] State.reset = .next t ∧
    t.responses = [0x00#8, 0x00#8, 0x00#8, 0x97#8, 0x65#8, 0x16#8, 0x32#8, 0x80#8, 0xE5#8, 0xC1#8, 0x6A#8]

/-! ### Faults (spec/60_exceptions.md) -/

/-- An opcode outside the map raises F_ILLEGAL_OPCODE in either phase (R70); its packet is one byte, and what follows it
stays on the channel as the next packet. That a reset event among what follows stays there too is the model's choice
(log 4, DESIGN CHOICE), and so is the fault of the term `illegal op` with op 1, 2 or 3, which no packet encodes (log 15,
DESIGN CHOICE). -/
def Obligations.IllegalOpcodeRaisesItsFault : Prop :=
  (∀ (op : Byte) (s : State), s.faultCause = 0x00#8 →
    exec (.illegal op) s = .next { s with faultCause := 0x01#8, responses := s.responses ++ [0x01#8] }) ∧
  ∀ (op : Byte) (following : List HostEvent) (s : State), op ≠ 0x01#8 → op ≠ 0x02#8 → op ≠ 0x03#8 →
    s.faultCause = 0x00#8 → s.channel = .byte op :: following →
    step s = .next { s with
      channel := following, faultCause := 0x01#8, responses := s.responses ++ [0x01#8] }

/-- R71: UPDATE, an empty one too, and DIGEST raise F_UNINIT in UNINIT; INIT never does. -/
def Obligations.UseBeforeInitRaisesItsFault : Prop :=
  ∀ s : State, s.faultCause = 0x00#8 → s.phase = .uninit →
    (∀ data : List Byte, exec (.update data) s =
      .next { s with faultCause := 0x02#8, responses := s.responses ++ [0x02#8] }) ∧
    exec .digest s = .next { s with faultCause := 0x02#8, responses := s.responses ++ [0x02#8] } ∧
    ∀ seed : Word, ∃ t, exec (.init seed) s = .next t ∧ t.faultCause = 0x00#8 ∧ t.phase = .ready

/-- R72: an UPDATE that would carry TOTAL_LEN past 2^64 - 1 raises F_LENGTH_OVERFLOW before any byte is hashed. -/
def Obligations.LengthOverflowRaisesItsFault : Prop :=
  ∀ (data : List Byte) (s : State), s.faultCause = 0x00#8 → s.phase = .ready →
    s.totalLen.toNat + data.length > 2 ^ 64 - 1 →
    exec (.update data) s = .next { s with faultCause := 0x03#8, responses := s.responses ++ [0x03#8] }

/-- R73: the checks in their order, for every command a packet encodes and in every state; the first that applies decides
the outcome. -/
def Obligations.ChecksApplyInOrder : Prop :=
  ∀ (i : Instr) (s : State), i.wellFormed = true → exec i s = .next (
    if s.faultCause ≠ 0x00#8 then { s with responses := s.responses ++ [s.faultCause] }
    else match i with
      | .illegal _ => { s with faultCause := 0x01#8, responses := s.responses ++ [0x01#8] }
      | .init seed => performInit seed s
      | .digest =>
        if s.phase = .uninit then { s with faultCause := 0x02#8, responses := s.responses ++ [0x02#8] }
        else performDigest s
      | .update data =>
        if s.phase = .uninit then { s with faultCause := 0x02#8, responses := s.responses ++ [0x02#8] }
        else if s.totalLen.toNat + data.length > 2 ^ 64 - 1 then
          { s with faultCause := 0x03#8, responses := s.responses ++ [0x03#8] }
        else performUpdate data s)

/-- A command that faults writes FAULT_CAUSE and no other register, and responds with the one byte [cause], its whole
packet having been consumed (R74). That a reset event behind the packet is left on the channel is the model's choice
(log 4, DESIGN CHOICE). -/
def Obligations.FaultsArePrecise : Prop :=
  ∀ (s t : State) (i : Instr) (rest : List Byte), decode (bytesArrived s.channel) = .ok (i, rest) →
    step s = .next t → s.faultCause = 0x00#8 → t.faultCause ≠ 0x00#8 →
    t = { s with
      channel := sent rest ++ fromReset s.channel
      faultCause := t.faultCause
      responses := s.responses ++ [t.faultCause] }

/-- A faulted block consumes every later packet, writes no register and responds with the original cause, and it is never
final (R75). That a reset event behind the packet is left on the channel is the model's choice (log 4, DESIGN
CHOICE). -/
def Obligations.FaultedBlockRefusesEveryPacket : Prop :=
  (∀ (s : State) (i : Instr) (rest : List Byte), s.faultCause ≠ 0x00#8 →
    decode (bytesArrived s.channel) = .ok (i, rest) →
    step s = .next { s with
      channel := sent rest ++ fromReset s.channel, responses := s.responses ++ [s.faultCause] }) ∧
  ∀ s : State, s.faultCause ≠ 0x00#8 → s.final = false

/-- A fault refutes a good outcome (R75, R76, R91): with no reset among what the host has sent, a run from a faulted state
keeps its cause and reaches no final state; and then a run has a good outcome exactly when it ends in a final state,
so that no fault on the way is hidden by the end. That a good outcome excludes a fault on the way is log 18
(DEDUCED). -/
def Obligations.FaultRefutesAGoodOutcome : Prop :=
  (∀ (n : Nat) (s t : State), .reset ∉ s.channel → s.faultCause ≠ 0x00#8 → Host.Core.run core n s = .next t →
    t.faultCause = s.faultCause ∧ t.final = false) ∧
  ∀ (n : Nat) (s t : State), .reset ∉ s.channel → Host.Core.run core n s = .next t →
    (GoodRun n s ↔ t.final = true)

/-- R76: no step leaves the faulted state but one that takes a reset, after which PHASE = UNINIT and FAULT_CAUSE is 0x00;
every other step keeps the first cause and every register. -/
def Obligations.OnlyResetLeavesAFault : Prop :=
  ∀ s t : State, s.faultCause ≠ 0x00#8 → step s = .next t →
    (∃ rest, arrival s.channel = .reset rest ∧ t.faultCause = 0x00#8 ∧ t.phase = .uninit) ∨
    ((∀ rest, arrival s.channel ≠ .reset rest) ∧ sameRegisters s t)

/-- The registers that hold no value before the first INIT cannot be observed (R16, R71): two blocks in UNINIT that agree
on FAULT_CAUSE and on both channels agree on everything the host can see after any number of steps, and on every
register once they are READY. So no claim rests on the values log 1 gives them. -/
def Obligations.RegistersBeforeInitAreUnobservable : Prop :=
  ∀ (n : Nat) (s t : State), s.phase = .uninit → t.phase = .uninit → s.faultCause = t.faultCause →
    s.channel = t.channel → s.responses = t.responses →
    ∃ s' t', Host.Core.run core n s = .next s' ∧ Host.Core.run core n t = .next t' ∧
      s'.responses = t'.responses ∧ s'.faultCause = t'.faultCause ∧ s'.channel = t'.channel ∧
      s'.phase = t'.phase ∧ (s'.phase = .ready → s' = t')

/-! ### Channels, reset and runs (spec/30_encoding.md section 4, spec/70_reset_and_hazards.md) -/

/-- R39: every command a packet encodes yields exactly one response packet: STATUS, the value of FAULT_CAUSE when it completes, and after
a DIGEST whose STATUS is 0x00 the 8 digest bytes. -/
def Obligations.OneResponsePerCommand : Prop :=
  ∀ (i : Instr) (s t : State), i.wellFormed = true → exec i s = .next t → t.responses = s.responses ++
    t.faultCause :: (if i = .digest ∧ t.faultCause = 0x00#8 then le64Bytes (digestOf s) else [])

/-- The block never waits on the response channel (R89, D19): what is left unread there changes nothing but itself. -/
def Obligations.UnreadResponsesDoNotMatter : Prop :=
  ∀ (unread : List Byte) (s t : State), step s = .next t →
    step { s with responses := unread ++ s.responses } = .next { t with responses := unread ++ t.responses }

/-- Reading a response and stepping commute (R89): the host gets the same byte whether it reads before or after the step,
and the block ends in the same state. -/
def Obligations.HostReadCommutesWithStep : Prop :=
  ∀ (b : Byte) (s s1 t : State), s.hostRead = some (b, s1) → step s = .next t →
    ∃ t1, step s1 = .next t1 ∧ t.hostRead = some (b, t1)

/-- A step runs the command that has arrived: when the bytes on the channel begin with a command's packet, the step is
`exec` of that command with the packet consumed, and the bytes and reset events after it left in order (R31, R40, R73).
That a complete packet standing ahead of a reset event is performed, and the reset left behind it, is the model's
choice (log 4, DESIGN CHOICE). -/
def Obligations.StepRunsTheDecodedCommand : Prop :=
  (∀ (s : State) (i : Instr) (rest : List Byte), decode (bytesArrived s.channel) = .ok (i, rest) →
    step s = exec i { s with channel := sent rest ++ fromReset s.channel }) ∧
  ∀ (s : State) (i : Instr) (following : List HostEvent), i.wellFormed = true →
    s.channel = sent (encode i) ++ following → step s = exec i { s with channel := following }

/-- R40 and R77: with only the beginning of a packet received, the block holds: it performs nothing and emits nothing,
until the missing bytes arrive; then it performs the command. -/
def Obligations.IncompletePacketHolds : Prop :=
  ∀ (s : State) (i : Instr) (part missing : List Byte), i.wellFormed = true → missing ≠ [] →
    encode i = part ++ missing → s.channel = sent part →
    step s = .next s ∧ step (s.hostSend missing) = exec i { s with channel := [] }

/-- R85: reset in the middle of a packet discards its bytes; the packet has no effect and gets no response, and what
follows the reset is read from an opcode byte on. -/
def Obligations.ResetDiscardsAPartialPacket : Prop :=
  ∀ (s : State) (i : Instr) (part missing : List Byte) (following : List HostEvent), i.wellFormed = true →
    missing ≠ [] → encode i = part ++ missing → s.channel = sent part ++ .reset :: following →
    ∃ t, step s = .next t ∧ t.phase = .uninit ∧ t.faultCause = 0x00#8 ∧ t.responses = s.responses ∧
      t.channel = following

/-- R83 and R84: reset gives PHASE = UNINIT and FAULT_CAUSE = 0x00, emits no response and keeps those already emitted;
power-on is the state reset gives, with nothing sent and nothing emitted. The values of the data registers in it are the
model's choice (log 1, DESIGN CHOICE). -/
def Obligations.ResetAndPowerOnAgree : Prop :=
  (∀ (s : State) (following : List HostEvent), s.channel = .reset :: following →
    step s = .next { State.reset with channel := following, responses := s.responses }) ∧
  State.reset.phase = .uninit ∧ State.reset.faultCause = 0x00#8 ∧ State.reset.channel = [] ∧
  State.reset.responses = []

/-- PHASE changes only as R14 says: to READY by an INIT in a block that is not faulted, to UNINIT by reset. -/
def Obligations.PhaseChangesOnlyByInitAndReset : Prop :=
  ∀ s t : State, step s = .next t → s.phase ≠ t.phase →
    (t.phase = .ready ∧ s.faultCause = 0x00#8 ∧
      ∃ seed rest, decode (bytesArrived s.channel) = .ok (.init seed, rest) ∧ t.seed = seed) ∨
    (t.phase = .uninit ∧ ∃ rest, arrival s.channel = .reset rest)

/-- What each command leaves alone (R8's "written by" column, R9, R10, R14, R15, R26): UPDATE leaves SEED and PHASE,
DIGEST and an illegal packet every data register and PHASE; only a fault writes FAULT_CAUSE, and then no data
register and not PHASE; no command takes anything from the command channel beyond its own packet. -/
def Obligations.CommandsLeaveOtherRegistersAlone : Prop :=
  ∀ (i : Instr) (s t : State), exec i s = .next t →
    t.channel = s.channel ∧
    ((∃ seed, i = .init seed) ∨ (t.seed = s.seed ∧ t.phase = s.phase)) ∧
    ((∃ seed, i = .init seed) ∨ (∃ data, i = .update data) ∨ (t.acc = s.acc ∧ t.totalLen = s.totalLen ∧
      t.tailBuf = s.tailBuf ∧ t.tailUsed = s.tailUsed)) ∧
    (t.faultCause = s.faultCause ∨ (s.faultCause = 0x00#8 ∧ t.seed = s.seed ∧ t.acc = s.acc ∧
      t.totalLen = s.totalLen ∧ t.tailBuf = s.tailBuf ∧ t.tailUsed = s.tailUsed ∧ t.phase = s.phase))

/-- The invariant of the block is kept by every step, from every state that meets it: TAIL_USED counts the valid tail
bytes, FAULT_CAUSE holds a code of R69, and in READY the data registers are those of R57 for the seed and some
stream of at most 2^64 - 1 bytes. -/
def Obligations.EveryStepKeepsTheInvariant : Prop :=
  ∀ s t : State, Inv s → step s = .next t → Inv t

/-- The invariant holds at power-on. That no tail byte is valid there and TAIL_USED is 0 is the model's choice (log 1,
DESIGN CHOICE). -/
def Obligations.PowerOnMeetsTheInvariant : Prop := Inv State.reset

/-- No step stops the machine: every fault of the spec is a state that is entered and answered (R74), and holding is a
state too (R40, R89). -/
def Obligations.EveryStepGivesANextState : Prop :=
  ∀ s : State, ∃ t, step s = .next t

/-- Every command ends and so does every run over what the host has sent (R4, R90, R91): after at most as many steps as
the channel holds events, the block holds. -/
def Obligations.EveryRunComesToHold : Prop :=
  ∀ s : State, ∃ n t, n ≤ s.channel.length ∧ Host.Core.run core n s = .next t ∧ arrival t.channel = .hold ∧
    step t = .next t

/-- Packets on the channel are performed one at a time, in order, each on exactly the state the one before it left, and
their responses leave in command order (R28): a run over the packets of a command sequence is that sequence of
commands, whatever follows it. That this holds with a reset event behind them too is the model's choice (log 4,
DESIGN CHOICE). -/
def Obligations.RunPerformsPacketsInOrder : Prop :=
  ∀ (cmds : List Instr) (s : State) (following : List HostEvent), (∀ c ∈ cmds, c.wellFormed = true) →
    s.channel = sent (cmds.flatMap encode) ++ following →
    Host.Core.run core cmds.length s = execAll cmds { s with channel := following }

/-- The pseudo-instruction `HASH <seed>, [<bytes>]` (R42): the run over its bytes responds 00, 00 and the one-shot hash
of the bytes under the seed, from any state that is not faulted. What follows the packets may hold reset events, which
wait behind them by the model's choice (log 4). -/
def Obligations.HashLineReturnsTheHash : Prop :=
  ∀ (seed : Word) (data : List Byte) (s : State) (following : List HostEvent), s.faultCause = 0x00#8 →
    data.length ≤ 2 ^ 64 - 1 → s.channel = sent (assemble (.hash seed data)) ++ following →
    ∃ t, Host.Core.run core 3 s = .next t ∧ t.channel = following ∧
      t.responses = s.responses ++ [0x00#8, 0x00#8] ++ (0x00#8 :: le64Bytes (xxh64 seed data))

/-- The pseudo-instruction `UPDATEN [<bytes>], n` (R42) leaves the same registers as one UPDATE of its bytes. That n bounds
the length of each piece is the model's reading (log 13, DEDUCED). -/
def Obligations.UpdatenLeavesTheStateOfOneUpdate : Prop :=
  ∀ (data : List Byte) (n : Nat) (s : State), 0 < n → s.tailWf = true → s.faultCause = 0x00#8 → s.phase = .ready →
    s.totalLen.toNat + data.length ≤ 2 ^ 64 - 1 →
    ∃ t u, execAll (expand (.updaten data n)) s = .next t ∧ exec (.update data) s = .next u ∧ sameRegisters t u ∧
      ∀ d, .update d ∈ expand (.updaten data n) → d.length ≤ n
end

