-- ==== Sys2Proof/Laws/Operands.lean ====
section
/-! SUPPORT. Little-endian values and byte sequences cut into chunks: the laws of Machine/Operands.lean. -/

namespace Sys2Proof.Machine

@[simp] theorem leBytes_length (n : Nat) (v : Word) : (leBytes n v).length = n := by
  induction n generalizing v with
  | zero => rfl
  | succ n ih => simp [leBytes, ih]

@[simp] theorem le64Bytes_length (v : Word) : (le64Bytes v).length = 8 := leBytes_length 8 v

/-- LE64 of the bytes of a word is the word: the packet fields lose no bit (R22). -/
@[simp] theorem le64_le64Bytes (v : Word) : le64 (le64Bytes v) = v := by
  apply BitVec.eq_of_toNat_eq
  have hv := v.isLt
  simp only [le64, le64Bytes, leBytes, leValue, BitVec.toNat_add, BitVec.toNat_shiftLeft, BitVec.toNat_setWidth,
    BitVec.toNat_ushiftRight, Nat.shiftLeft_eq, Nat.shiftRight_eq_div_pow, BitVec.toNat_ofNat]
  omega

/-- A value followed by a byte below it. -/
theorem append_byte_toNat {n : Nat} (x : BitVec n) (b : Byte) : (x ++ b).toNat = 256 * x.toNat + b.toNat := by
  rw [BitVec.toNat_append, ← Nat.shiftLeft_add_eq_or_of_lt b.isLt, Nat.shiftLeft_eq, Nat.mul_comm]

@[simp] theorem slice_zero (s : List Byte) (n : Nat) : slice s 0 n = s.take n := rfl

theorem slice_length (s : List Byte) (off n : Nat) : (slice s off n).length = min n (s.length - off) := by
  simp [slice]

/-- Eight bytes written after one another read back as the value `b7 ‖ … ‖ b0` (R21). -/
theorem le64_bytes (b0 b1 b2 b3 b4 b5 b6 b7 : Byte) :
    le64 [b0, b1, b2, b3, b4, b5, b6, b7] = b7 ++ b6 ++ b5 ++ b4 ++ b3 ++ b2 ++ b1 ++ b0 := by
  apply BitVec.eq_of_toNat_eq
  have := b0.isLt; have := b1.isLt; have := b2.isLt; have := b3.isLt
  have := b4.isLt; have := b5.isLt; have := b6.isLt; have := b7.isLt
  simp only [le64, leValue, BitVec.toNat_add, BitVec.toNat_shiftLeft, BitVec.toNat_setWidth,
    Nat.shiftLeft_eq, append_byte_toNat, BitVec.toNat_ofNat]
  omega

/-- Four bytes written after one another read back as the value `b3 ‖ … ‖ b0` (R21). -/
theorem le32_bytes (b0 b1 b2 b3 : Byte) : le32 [b0, b1, b2, b3] = b3 ++ b2 ++ b1 ++ b0 := by
  apply BitVec.eq_of_toNat_eq
  have := b0.isLt; have := b1.isLt; have := b2.isLt; have := b3.isLt
  simp only [le32, leValue, BitVec.toNat_add, BitVec.toNat_shiftLeft, BitVec.toNat_setWidth,
    Nat.shiftLeft_eq, append_byte_toNat, BitVec.toNat_ofNat]
  omega

/-- Every 8-byte sequence is the bytes of its LE64 value. -/
theorem le64Bytes_le64 {s : List Byte} (h : s.length = 8) : le64Bytes (le64 s) = s := by
  obtain ⟨b0, b1, b2, b3, b4, b5, b6, b7, rfl⟩ : ∃ b0 b1 b2 b3 b4 b5 b6 b7, s = [b0, b1, b2, b3, b4, b5, b6, b7] := by
    match s, h with
    | [b0, b1, b2, b3, b4, b5, b6, b7], _ => exact ⟨b0, b1, b2, b3, b4, b5, b6, b7, rfl⟩
  rw [le64_bytes]
  have hb : ∀ (b : Byte), b.toNat < 256 := fun b => b.isLt
  have := hb b0; have := hb b1; have := hb b2; have := hb b3
  have := hb b4; have := hb b5; have := hb b6; have := hb b7
  simp only [le64Bytes, leBytes, List.cons.injEq, and_true]
  refine ⟨?_, ?_, ?_, ?_, ?_, ?_, ?_, ?_⟩ <;>
  · apply BitVec.eq_of_toNat_eq
    simp only [BitVec.toNat_setWidth, BitVec.toNat_ushiftRight, Nat.shiftRight_eq_div_pow, append_byte_toNat]
    omega

section Chunks

variable {α : Type} (f : α → List Byte → α)

@[simp] theorem foldChunks_zero (size : Nat) (a : α) (s : List Byte) : foldChunks size f 0 a s = a := rfl

theorem foldChunks_succ (size k : Nat) (a : α) (s : List Byte) :
    foldChunks size f (k + 1) a s = foldChunks size f k (f a (s.take size)) (s.drop size) := rfl

/-- Only the first `size * k` bytes matter. -/
theorem foldChunks_append_right (size k : Nat) (a : α) (s t : List Byte) (h : size * k ≤ s.length) :
    foldChunks size f k a (s ++ t) = foldChunks size f k a s := by
  induction k generalizing a s with
  | zero => rfl
  | succ k ih =>
    have h1 : size ≤ s.length := by rw [Nat.mul_succ] at h; omega
    have h2 : size * k ≤ (s.drop size).length := by rw [List.length_drop]; rw [Nat.mul_succ] at h; omega
    rw [foldChunks_succ, foldChunks_succ, List.take_append_of_le_length h1, List.drop_append_of_le_length h1, ih _ _ h2]

/-- Folding `j + k` chunks is folding `j` and then `k` from where the first stopped. -/
theorem foldChunks_add (size j k : Nat) (a : α) (s : List Byte) :
    foldChunks size f (j + k) a s = foldChunks size f k (foldChunks size f j a s) (s.drop (size * j)) := by
  induction j generalizing a s with
  | zero => simp
  | succ j ih =>
    rw [Nat.succ_add, foldChunks_succ, foldChunks_succ, ih, List.drop_drop, Nat.mul_succ, Nat.add_comm size]

/-- The last chunk, taken where the others stop. -/
theorem foldChunks_last (size k : Nat) (a : α) (s : List Byte) :
    foldChunks size f (k + 1) a s = f (foldChunks size f k a s) (slice s (size * k) size) := by
  rw [foldChunks_add, foldChunks_succ, foldChunks_zero, slice]

/-- The loop test of R53 step 4 and R61 pass a when it holds: one more turn. -/
theorem foldWhole_of_le {size : Nat} (hs : 0 < size) (a : α) {s : List Byte} (h : size ≤ s.length) :
    foldWhole size f a s = foldWhole size f (f a (s.take size)) (s.drop size) := by
  have hd : s.length / size = (s.length - size) / size + 1 := Nat.div_eq_sub_div hs h
  rw [foldWhole, foldWhole, List.length_drop, hd, foldChunks_succ]

/-- The loop test when it fails: the loop is over. -/
theorem foldWhole_of_lt {size : Nat} (a : α) {s : List Byte} (h : s.length < size) : foldWhole size f a s = a := by
  rw [foldWhole, Nat.div_eq_of_lt h, foldChunks_zero]

end Chunks

theorem remainder_of_le {size : Nat} (hs : 0 < size) {s : List Byte} (h : size ≤ s.length) :
    remainder size s = remainder size (s.drop size) := by
  have hd : s.length / size = (s.length - size) / size + 1 := Nat.div_eq_sub_div hs h
  rw [remainder, remainder, List.length_drop, List.drop_drop, hd, Nat.mul_succ, Nat.add_comm size]

theorem remainder_of_lt {size : Nat} {s : List Byte} (h : s.length < size) : remainder size s = s := by
  rw [remainder, Nat.div_eq_of_lt h, Nat.mul_zero, List.drop_zero]

@[simp] theorem remainder_length (size : Nat) (s : List Byte) : (remainder size s).length = s.length % size := by
  rw [remainder, List.length_drop]
  have := Nat.div_add_mod s.length size
  omega

/-- Folding a sequence and then more of it: what the first loop leaves unconsumed is completed by what follows. -/
theorem foldWhole_append {α : Type} (f : α → List Byte → α) {size : Nat} (hs : 0 < size) (a : α) (s t : List Byte) :
    foldWhole size f a (s ++ t) = foldWhole size f (foldWhole size f a s) (remainder size s ++ t) := by
  have hle : size * (s.length / size) ≤ s.length := Nat.mul_div_le _ _
  have hdiv : (s ++ t).length / size = s.length / size + (remainder size s ++ t).length / size := by
    rw [List.length_append, List.length_append, remainder_length]
    have := Nat.div_add_mod s.length size
    have h2 : s.length + t.length = (s.length % size + t.length) + size * (s.length / size) := by omega
    rw [h2, Nat.add_mul_div_left _ _ hs, Nat.add_comm]
  rw [foldWhole, hdiv, foldChunks_add, foldChunks_append_right f size _ a s t hle]
  rw [List.drop_append_of_le_length hle]
  rfl

theorem remainder_append {size : Nat} (hs : 0 < size) (s t : List Byte) :
    remainder size (s ++ t) = remainder size (remainder size s ++ t) := by
  have hle : size * (s.length / size) ≤ s.length := Nat.mul_div_le _ _
  have hdiv : (s ++ t).length / size = s.length / size + (remainder size s ++ t).length / size := by
    rw [List.length_append, List.length_append, remainder_length]
    have := Nat.div_add_mod s.length size
    have h2 : s.length + t.length = (s.length % size + t.length) + size * (s.length / size) := by omega
    rw [h2, Nat.add_mul_div_left _ _ hs, Nat.add_comm]
  rw [remainder, hdiv, Nat.mul_add, ← List.drop_drop, List.drop_append_of_le_length hle]
  rfl

end Sys2Proof.Machine
end

