-- ==== Sys2Proof/Laws/State.lean ====
section
/-! SUPPORT. One lemma per field per update of the state: what each shared operation and each command's body
leaves in every field. Later proofs rewrite with these and unfold no record update. -/

namespace Sys2Proof.Machine

@[simp] theorem respond_seed (bs : List Byte) (s : State) : (respond bs s).seed = s.seed := rfl
@[simp] theorem respond_acc (bs : List Byte) (s : State) : (respond bs s).acc = s.acc := rfl
@[simp] theorem respond_totalLen (bs : List Byte) (s : State) : (respond bs s).totalLen = s.totalLen := rfl
@[simp] theorem respond_tailBuf (bs : List Byte) (s : State) : (respond bs s).tailBuf = s.tailBuf := rfl
@[simp] theorem respond_tailUsed (bs : List Byte) (s : State) : (respond bs s).tailUsed = s.tailUsed := rfl
@[simp] theorem respond_phase (bs : List Byte) (s : State) : (respond bs s).phase = s.phase := rfl
@[simp] theorem respond_faultCause (bs : List Byte) (s : State) : (respond bs s).faultCause = s.faultCause := rfl
@[simp] theorem respond_channel (bs : List Byte) (s : State) : (respond bs s).channel = s.channel := rfl
@[simp] theorem respond_responses (bs : List Byte) (s : State) : (respond bs s).responses = s.responses ++ bs := rfl

@[simp] theorem respondOk_seed (s : State) : (respondOk s).seed = s.seed := rfl
@[simp] theorem respondOk_acc (s : State) : (respondOk s).acc = s.acc := rfl
@[simp] theorem respondOk_totalLen (s : State) : (respondOk s).totalLen = s.totalLen := rfl
@[simp] theorem respondOk_tailBuf (s : State) : (respondOk s).tailBuf = s.tailBuf := rfl
@[simp] theorem respondOk_tailUsed (s : State) : (respondOk s).tailUsed = s.tailUsed := rfl
@[simp] theorem respondOk_phase (s : State) : (respondOk s).phase = s.phase := rfl
@[simp] theorem respondOk_faultCause (s : State) : (respondOk s).faultCause = s.faultCause := rfl
@[simp] theorem respondOk_channel (s : State) : (respondOk s).channel = s.channel := rfl
@[simp] theorem respondOk_responses (s : State) : (respondOk s).responses = s.responses ++ [codeNone] := rfl

@[simp] theorem tailWrite_seed (off : Nat) (bs : List Byte) (s : State) : (tailWrite off bs s).seed = s.seed := rfl
@[simp] theorem tailWrite_acc (off : Nat) (bs : List Byte) (s : State) : (tailWrite off bs s).acc = s.acc := rfl
@[simp] theorem tailWrite_totalLen (off : Nat) (bs : List Byte) (s : State) : (tailWrite off bs s).totalLen = s.totalLen := rfl
@[simp] theorem tailWrite_tailBuf (off : Nat) (bs : List Byte) (s : State) : (tailWrite off bs s).tailBuf = s.tailBuf.take off ++ bs := rfl
@[simp] theorem tailWrite_tailUsed (off : Nat) (bs : List Byte) (s : State) : (tailWrite off bs s).tailUsed = s.tailUsed := rfl
@[simp] theorem tailWrite_phase (off : Nat) (bs : List Byte) (s : State) : (tailWrite off bs s).phase = s.phase := rfl
@[simp] theorem tailWrite_faultCause (off : Nat) (bs : List Byte) (s : State) : (tailWrite off bs s).faultCause = s.faultCause := rfl
@[simp] theorem tailWrite_channel (off : Nat) (bs : List Byte) (s : State) : (tailWrite off bs s).channel = s.channel := rfl
@[simp] theorem tailWrite_responses (off : Nat) (bs : List Byte) (s : State) : (tailWrite off bs s).responses = s.responses := rfl

@[simp] theorem setTailUsed_seed (n : Nat) (s : State) : (setTailUsed n s).seed = s.seed := rfl
@[simp] theorem setTailUsed_acc (n : Nat) (s : State) : (setTailUsed n s).acc = s.acc := rfl
@[simp] theorem setTailUsed_totalLen (n : Nat) (s : State) : (setTailUsed n s).totalLen = s.totalLen := rfl
@[simp] theorem setTailUsed_tailBuf (n : Nat) (s : State) : (setTailUsed n s).tailBuf = s.tailBuf.take n := rfl
@[simp] theorem setTailUsed_tailUsed (n : Nat) (s : State) : (setTailUsed n s).tailUsed = BitVec.ofNat 5 n := rfl
@[simp] theorem setTailUsed_phase (n : Nat) (s : State) : (setTailUsed n s).phase = s.phase := rfl
@[simp] theorem setTailUsed_faultCause (n : Nat) (s : State) : (setTailUsed n s).faultCause = s.faultCause := rfl
@[simp] theorem setTailUsed_channel (n : Nat) (s : State) : (setTailUsed n s).channel = s.channel := rfl
@[simp] theorem setTailUsed_responses (n : Nat) (s : State) : (setTailUsed n s).responses = s.responses := rfl

@[simp] theorem setAcc_seed (a : Accumulators) (s : State) : (setAcc a s).seed = s.seed := rfl
@[simp] theorem setAcc_acc (a : Accumulators) (s : State) : (setAcc a s).acc = a := rfl
@[simp] theorem setAcc_totalLen (a : Accumulators) (s : State) : (setAcc a s).totalLen = s.totalLen := rfl
@[simp] theorem setAcc_tailBuf (a : Accumulators) (s : State) : (setAcc a s).tailBuf = s.tailBuf := rfl
@[simp] theorem setAcc_tailUsed (a : Accumulators) (s : State) : (setAcc a s).tailUsed = s.tailUsed := rfl
@[simp] theorem setAcc_phase (a : Accumulators) (s : State) : (setAcc a s).phase = s.phase := rfl
@[simp] theorem setAcc_faultCause (a : Accumulators) (s : State) : (setAcc a s).faultCause = s.faultCause := rfl
@[simp] theorem setAcc_channel (a : Accumulators) (s : State) : (setAcc a s).channel = s.channel := rfl
@[simp] theorem setAcc_responses (a : Accumulators) (s : State) : (setAcc a s).responses = s.responses := rfl

@[simp] theorem addTotalLen_seed (len : Nat) (s : State) : (addTotalLen len s).seed = s.seed := rfl
@[simp] theorem addTotalLen_acc (len : Nat) (s : State) : (addTotalLen len s).acc = s.acc := rfl
@[simp] theorem addTotalLen_totalLen (len : Nat) (s : State) : (addTotalLen len s).totalLen = s.totalLen + BitVec.ofNat 64 len := rfl
@[simp] theorem addTotalLen_tailBuf (len : Nat) (s : State) : (addTotalLen len s).tailBuf = s.tailBuf := rfl
@[simp] theorem addTotalLen_tailUsed (len : Nat) (s : State) : (addTotalLen len s).tailUsed = s.tailUsed := rfl
@[simp] theorem addTotalLen_phase (len : Nat) (s : State) : (addTotalLen len s).phase = s.phase := rfl
@[simp] theorem addTotalLen_faultCause (len : Nat) (s : State) : (addTotalLen len s).faultCause = s.faultCause := rfl
@[simp] theorem addTotalLen_channel (len : Nat) (s : State) : (addTotalLen len s).channel = s.channel := rfl
@[simp] theorem addTotalLen_responses (len : Nat) (s : State) : (addTotalLen len s).responses = s.responses := rfl

@[simp] theorem raiseFault_seed (c : FaultCause) (s : State) : (raiseFault c s).seed = s.seed := rfl
@[simp] theorem raiseFault_acc (c : FaultCause) (s : State) : (raiseFault c s).acc = s.acc := rfl
@[simp] theorem raiseFault_totalLen (c : FaultCause) (s : State) : (raiseFault c s).totalLen = s.totalLen := rfl
@[simp] theorem raiseFault_tailBuf (c : FaultCause) (s : State) : (raiseFault c s).tailBuf = s.tailBuf := rfl
@[simp] theorem raiseFault_tailUsed (c : FaultCause) (s : State) : (raiseFault c s).tailUsed = s.tailUsed := rfl
@[simp] theorem raiseFault_phase (c : FaultCause) (s : State) : (raiseFault c s).phase = s.phase := rfl
@[simp] theorem raiseFault_faultCause (c : FaultCause) (s : State) : (raiseFault c s).faultCause = faultCode c := rfl
@[simp] theorem raiseFault_channel (c : FaultCause) (s : State) : (raiseFault c s).channel = s.channel := rfl
@[simp] theorem raiseFault_responses (c : FaultCause) (s : State) : (raiseFault c s).responses = s.responses ++ [faultCode c] := rfl

@[simp] theorem refusePacket_seed (s : State) : (refusePacket s).seed = s.seed := rfl
@[simp] theorem refusePacket_acc (s : State) : (refusePacket s).acc = s.acc := rfl
@[simp] theorem refusePacket_totalLen (s : State) : (refusePacket s).totalLen = s.totalLen := rfl
@[simp] theorem refusePacket_tailBuf (s : State) : (refusePacket s).tailBuf = s.tailBuf := rfl
@[simp] theorem refusePacket_tailUsed (s : State) : (refusePacket s).tailUsed = s.tailUsed := rfl
@[simp] theorem refusePacket_phase (s : State) : (refusePacket s).phase = s.phase := rfl
@[simp] theorem refusePacket_faultCause (s : State) : (refusePacket s).faultCause = s.faultCause := rfl
@[simp] theorem refusePacket_channel (s : State) : (refusePacket s).channel = s.channel := rfl
@[simp] theorem refusePacket_responses (s : State) : (refusePacket s).responses = s.responses ++ [s.faultCause] := rfl

@[simp] theorem resetBlock_seed (s : State) : (resetBlock s).seed = 0#64 := rfl
@[simp] theorem resetBlock_acc (s : State) : (resetBlock s).acc = ⟨0#64, 0#64, 0#64, 0#64⟩ := rfl
@[simp] theorem resetBlock_totalLen (s : State) : (resetBlock s).totalLen = 0#64 := rfl
@[simp] theorem resetBlock_tailBuf (s : State) : (resetBlock s).tailBuf = [] := rfl
@[simp] theorem resetBlock_tailUsed (s : State) : (resetBlock s).tailUsed = 0#5 := rfl
@[simp] theorem resetBlock_phase (s : State) : (resetBlock s).phase = .uninit := rfl
@[simp] theorem resetBlock_faultCause (s : State) : (resetBlock s).faultCause = codeNone := rfl
@[simp] theorem resetBlock_channel (s : State) : (resetBlock s).channel = s.channel := rfl
@[simp] theorem resetBlock_responses (s : State) : (resetBlock s).responses = s.responses := rfl

@[simp] theorem performInit_seed (seed : Word) (s : State) : (performInit seed s).seed = seed := rfl
@[simp] theorem performInit_acc (seed : Word) (s : State) : (performInit seed s).acc = initAcc seed := rfl
@[simp] theorem performInit_totalLen (seed : Word) (s : State) : (performInit seed s).totalLen = 0#64 := rfl
@[simp] theorem performInit_tailBuf (seed : Word) (s : State) : (performInit seed s).tailBuf = [] := rfl
@[simp] theorem performInit_tailUsed (seed : Word) (s : State) : (performInit seed s).tailUsed = 0#5 := rfl
@[simp] theorem performInit_phase (seed : Word) (s : State) : (performInit seed s).phase = .ready := rfl
@[simp] theorem performInit_faultCause (seed : Word) (s : State) : (performInit seed s).faultCause = s.faultCause := rfl
@[simp] theorem performInit_channel (seed : Word) (s : State) : (performInit seed s).channel = s.channel := rfl
@[simp] theorem performInit_responses (seed : Word) (s : State) : (performInit seed s).responses = s.responses ++ [codeNone] := rfl

@[simp] theorem performDigest_seed (s : State) : (performDigest s).seed = s.seed := rfl
@[simp] theorem performDigest_acc (s : State) : (performDigest s).acc = s.acc := rfl
@[simp] theorem performDigest_totalLen (s : State) : (performDigest s).totalLen = s.totalLen := rfl
@[simp] theorem performDigest_tailBuf (s : State) : (performDigest s).tailBuf = s.tailBuf := rfl
@[simp] theorem performDigest_tailUsed (s : State) : (performDigest s).tailUsed = s.tailUsed := rfl
@[simp] theorem performDigest_phase (s : State) : (performDigest s).phase = s.phase := rfl
@[simp] theorem performDigest_faultCause (s : State) : (performDigest s).faultCause = s.faultCause := rfl
@[simp] theorem performDigest_channel (s : State) : (performDigest s).channel = s.channel := rfl
@[simp] theorem performDigest_responses (s : State) : (performDigest s).responses = s.responses ++ (codeNone :: le64Bytes (digestOf s)) := rfl

@[simp] theorem appendToTail_seed (data : List Byte) (s : State) : (appendToTail data s).seed = s.seed := by
  rw [appendToTail, setTailUsed_seed, tailWrite_seed]
@[simp] theorem appendToTail_phase (data : List Byte) (s : State) : (appendToTail data s).phase = s.phase := by
  rw [appendToTail, setTailUsed_phase, tailWrite_phase]
@[simp] theorem appendToTail_faultCause (data : List Byte) (s : State) : (appendToTail data s).faultCause = s.faultCause := by
  rw [appendToTail, setTailUsed_faultCause, tailWrite_faultCause]
@[simp] theorem appendToTail_channel (data : List Byte) (s : State) : (appendToTail data s).channel = s.channel := by
  rw [appendToTail, setTailUsed_channel, tailWrite_channel]
@[simp] theorem appendToTail_responses (data : List Byte) (s : State) : (appendToTail data s).responses = s.responses := by
  rw [appendToTail, setTailUsed_responses, tailWrite_responses]

@[simp] theorem foldTail_seed (s : State) : (foldTail s).seed = s.seed := by
  rw [foldTail, setTailUsed_seed, setAcc_seed]
@[simp] theorem foldTail_phase (s : State) : (foldTail s).phase = s.phase := by
  rw [foldTail, setTailUsed_phase, setAcc_phase]
@[simp] theorem foldTail_faultCause (s : State) : (foldTail s).faultCause = s.faultCause := by
  rw [foldTail, setTailUsed_faultCause, setAcc_faultCause]
@[simp] theorem foldTail_channel (s : State) : (foldTail s).channel = s.channel := by
  rw [foldTail, setTailUsed_channel, setAcc_channel]
@[simp] theorem foldTail_responses (s : State) : (foldTail s).responses = s.responses := by
  rw [foldTail, setTailUsed_responses, setAcc_responses]

@[simp] theorem completeTail_seed (data : List Byte) (s : State) : (completeTail data s).seed = s.seed := by
  rw [completeTail]
  split
  · rw [foldTail_seed, tailWrite_seed]
  · rfl
@[simp] theorem completeTail_phase (data : List Byte) (s : State) : (completeTail data s).phase = s.phase := by
  rw [completeTail]
  split
  · rw [foldTail_phase, tailWrite_phase]
  · rfl
@[simp] theorem completeTail_faultCause (data : List Byte) (s : State) : (completeTail data s).faultCause = s.faultCause := by
  rw [completeTail]
  split
  · rw [foldTail_faultCause, tailWrite_faultCause]
  · rfl
@[simp] theorem completeTail_channel (data : List Byte) (s : State) : (completeTail data s).channel = s.channel := by
  rw [completeTail]
  split
  · rw [foldTail_channel, tailWrite_channel]
  · rfl
@[simp] theorem completeTail_responses (data : List Byte) (s : State) : (completeTail data s).responses = s.responses := by
  rw [completeTail]
  split
  · rw [foldTail_responses, tailWrite_responses]
  · rfl

@[simp] theorem foldInput_seed (input : List Byte) (s : State) : (foldInput input s).seed = s.seed := by
  rw [foldInput, setTailUsed_seed, tailWrite_seed, setAcc_seed]
@[simp] theorem foldInput_phase (input : List Byte) (s : State) : (foldInput input s).phase = s.phase := by
  rw [foldInput, setTailUsed_phase, tailWrite_phase, setAcc_phase]
@[simp] theorem foldInput_faultCause (input : List Byte) (s : State) : (foldInput input s).faultCause = s.faultCause := by
  rw [foldInput, setTailUsed_faultCause, tailWrite_faultCause, setAcc_faultCause]
@[simp] theorem foldInput_channel (input : List Byte) (s : State) : (foldInput input s).channel = s.channel := by
  rw [foldInput, setTailUsed_channel, tailWrite_channel, setAcc_channel]
@[simp] theorem foldInput_responses (input : List Byte) (s : State) : (foldInput input s).responses = s.responses := by
  rw [foldInput, setTailUsed_responses, tailWrite_responses, setAcc_responses]

@[simp] theorem performUpdate_seed (data : List Byte) (s : State) : (performUpdate data s).seed = s.seed := by
  rw [performUpdate, respondOk_seed]
  split
  · rw [appendToTail_seed, addTotalLen_seed]
  · rw [foldInput_seed, completeTail_seed, addTotalLen_seed]
@[simp] theorem performUpdate_phase (data : List Byte) (s : State) : (performUpdate data s).phase = s.phase := by
  rw [performUpdate, respondOk_phase]
  split
  · rw [appendToTail_phase, addTotalLen_phase]
  · rw [foldInput_phase, completeTail_phase, addTotalLen_phase]
@[simp] theorem performUpdate_faultCause (data : List Byte) (s : State) : (performUpdate data s).faultCause = s.faultCause := by
  rw [performUpdate, respondOk_faultCause]
  split
  · rw [appendToTail_faultCause, addTotalLen_faultCause]
  · rw [foldInput_faultCause, completeTail_faultCause, addTotalLen_faultCause]
@[simp] theorem performUpdate_channel (data : List Byte) (s : State) : (performUpdate data s).channel = s.channel := by
  rw [performUpdate, respondOk_channel]
  split
  · rw [appendToTail_channel, addTotalLen_channel]
  · rw [foldInput_channel, completeTail_channel, addTotalLen_channel]
@[simp] theorem performUpdate_responses (data : List Byte) (s : State) : (performUpdate data s).responses = s.responses ++ [codeNone] := by
  rw [performUpdate, respondOk_responses]
  split
  · rw [appendToTail_responses, addTotalLen_responses]
  · rw [foldInput_responses, completeTail_responses, addTotalLen_responses]

end Sys2Proof.Machine
end

