-- ==== Sys2Proof/Laws/Ops.lean ====
section
/-! SUPPORT. What the shared operations can do, once each: the common checks (R73) and the meanings built on them. -/

namespace Sys2Proof.Machine

theorem isFaulted_eq_false {s : State} : isFaulted s = false ↔ s.faultCause = codeNone := by
  simp [isFaulted]

theorem isFaulted_eq_true {s : State} : isFaulted s = true ↔ s.faultCause ≠ codeNone := by
  simp [isFaulted]

theorem isUninit_eq_true {s : State} : isUninit s = true ↔ s.phase = .uninit := by
  simp [isUninit]

theorem isUninit_eq_false {s : State} : isUninit s = false ↔ s.phase = .ready := by
  cases h : s.phase <;> simp [isUninit, h]

theorem lengthOverflows_eq_false {s : State} {len : Nat} :
    lengthOverflows s len = false ↔ s.totalLen.toNat + len ≤ Config.maxLength := by
  simp only [lengthOverflows, decide_eq_false_iff_not]
  omega

/-- A final state is one with nothing left to consume and no fault (R75, R91). -/
theorem final_iff {s : State} : s.final = true ↔ s.channel = [] ∧ s.faultCause = codeNone := by
  simp [State.final, State.ended, isFaulted]

/-- "A model must treat a faulted state as never final" (R75). -/
theorem final_of_faulted {s : State} (h : s.faultCause ≠ codeNone) : s.final = false := by
  simp [State.final, isFaulted_eq_true.mpr h]

/-- A faulted block refuses whatever was to be done (check 1). -/
theorem unlessFaulted_of_faulted {s : State} (go : State) (h : s.faultCause ≠ codeNone) :
    unlessFaulted s go = refusePacket s := if_pos (isFaulted_eq_true.mpr h)

theorem unlessFaulted_of_ok {s : State} (go : State) (h : s.faultCause = codeNone) :
    unlessFaulted s go = go := if_neg (by simp [isFaulted_eq_false.mpr h])

theorem whenReady_of_uninit {s : State} (go : State) (h : s.phase = .uninit) :
    whenReady s go = raiseFault .uninit s := if_pos (isUninit_eq_true.mpr h)

theorem whenReady_of_ready {s : State} (go : State) (h : s.phase = .ready) :
    whenReady s go = go := if_neg (by simp [isUninit_eq_false.mpr h])

theorem whenLengthFits_of_fits {s : State} {len : Nat} (go : State)
    (h : s.totalLen.toNat + len ≤ Config.maxLength) : whenLengthFits s len go = go :=
  if_neg (by simp [lengthOverflows_eq_false.mpr h])

theorem whenLengthFits_of_overflow {s : State} {len : Nat} (go : State)
    (h : Config.maxLength < s.totalLen.toNat + len) :
    whenLengthFits s len go = raiseFault .lengthOverflow s :=
  if_pos (decide_eq_true h)

/-- Everything the checks before an UPDATE can lead to (R73). -/
theorem execUpdate_cases (data : List Byte) (s : State) :
    (s.faultCause ≠ codeNone ∧ execUpdate data s = .next (refusePacket s)) ∨
    (s.faultCause = codeNone ∧ s.phase = .uninit ∧ execUpdate data s = .next (raiseFault .uninit s)) ∨
    (s.faultCause = codeNone ∧ s.phase = .ready ∧ Config.maxLength < s.totalLen.toNat + data.length ∧
      execUpdate data s = .next (raiseFault .lengthOverflow s)) ∨
    (s.faultCause = codeNone ∧ s.phase = .ready ∧ s.totalLen.toNat + data.length ≤ Config.maxLength ∧
      execUpdate data s = .next (performUpdate data s)) := by
  by_cases hf : s.faultCause = codeNone
  · cases hp : s.phase with
    | uninit => exact .inr (.inl ⟨hf, rfl, by rw [execUpdate, unlessFaulted_of_ok _ hf, whenReady_of_uninit _ hp]⟩)
    | ready =>
      by_cases hl : s.totalLen.toNat + data.length ≤ Config.maxLength
      · exact .inr (.inr (.inr ⟨hf, rfl, hl, by
          rw [execUpdate, unlessFaulted_of_ok _ hf, whenReady_of_ready _ hp, whenLengthFits_of_fits _ hl]⟩))
      · have hl : Config.maxLength < s.totalLen.toNat + data.length := Nat.lt_of_not_le hl
        exact .inr (.inr (.inl ⟨hf, rfl, hl, by
          rw [execUpdate, unlessFaulted_of_ok _ hf, whenReady_of_ready _ hp, whenLengthFits_of_overflow _ hl]⟩))
  · exact .inl ⟨hf, by rw [execUpdate, unlessFaulted_of_faulted _ hf]⟩

/-- Everything the checks before a DIGEST can lead to (R73). -/
theorem execDigest_cases (s : State) :
    (s.faultCause ≠ codeNone ∧ execDigest s = .next (refusePacket s)) ∨
    (s.faultCause = codeNone ∧ s.phase = .uninit ∧ execDigest s = .next (raiseFault .uninit s)) ∨
    (s.faultCause = codeNone ∧ s.phase = .ready ∧ execDigest s = .next (performDigest s)) := by
  by_cases hf : s.faultCause = codeNone
  · cases hp : s.phase with
    | uninit => exact .inr (.inl ⟨hf, rfl, by rw [execDigest, unlessFaulted_of_ok _ hf, whenReady_of_uninit _ hp]⟩)
    | ready => exact .inr (.inr ⟨hf, rfl, by rw [execDigest, unlessFaulted_of_ok _ hf, whenReady_of_ready _ hp]⟩)
  · exact .inl ⟨hf, by rw [execDigest, unlessFaulted_of_faulted _ hf]⟩

/-- Everything the check before an INIT can lead to (R51, R73). -/
theorem execInit_cases (seed : Word) (s : State) :
    (s.faultCause ≠ codeNone ∧ execInit seed s = .next (refusePacket s)) ∨
    (s.faultCause = codeNone ∧ execInit seed s = .next (performInit seed s)) := by
  by_cases hf : s.faultCause = codeNone
  · exact .inr ⟨hf, by rw [execInit, unlessFaulted_of_ok _ hf]⟩
  · exact .inl ⟨hf, by rw [execInit, unlessFaulted_of_faulted _ hf]⟩

/-- Everything the checks before an illegal packet can lead to (R70, R73). -/
theorem execIllegal_cases (op : Byte) (s : State) :
    (s.faultCause ≠ codeNone ∧ execIllegal op s = .next (refusePacket s)) ∨
    (s.faultCause = codeNone ∧ execIllegal op s = .next (raiseFault .illegalOpcode s)) := by
  by_cases hf : s.faultCause = codeNone
  · exact .inr ⟨hf, by rw [execIllegal, unlessFaulted_of_ok _ hf]⟩
  · exact .inl ⟨hf, by rw [execIllegal, unlessFaulted_of_faulted _ hf]⟩

/-- In a faulted block every command is refused (R75). -/
theorem exec_of_faulted (i : Instr) {s : State} (h : s.faultCause ≠ codeNone) :
    exec i s = .next (refusePacket s) := by
  cases i <;> simp only [exec, execInit, execUpdate, execDigest, execIllegal, unlessFaulted_of_faulted _ h]

/-- What a command can do in a block that is not faulted: raise one of the three faults, or perform INIT, UPDATE or
DIGEST under the conditions of R73. -/
theorem exec_cases (i : Instr) (s t : State) (h : exec i s = .next t) :
    (s.faultCause ≠ codeNone ∧ t = refusePacket s) ∨
    (s.faultCause = codeNone ∧ ∃ c, t = raiseFault c s) ∨
    (s.faultCause = codeNone ∧ ∃ seed, i = .init seed ∧ t = performInit seed s) ∨
    (s.faultCause = codeNone ∧ s.phase = .ready ∧ ∃ data, i = .update data ∧
      s.totalLen.toNat + data.length ≤ Config.maxLength ∧ t = performUpdate data s) ∨
    (s.faultCause = codeNone ∧ s.phase = .ready ∧ i = .digest ∧ t = performDigest s) := by
  cases i with
  | init seed =>
    obtain ⟨hf, he⟩ | ⟨hf, he⟩ := execInit_cases seed s <;> rw [exec, he] at h <;> cases h
    · exact .inl ⟨hf, rfl⟩
    · exact .inr (.inr (.inl ⟨hf, seed, rfl, rfl⟩))
  | update data =>
    obtain ⟨hf, he⟩ | ⟨hf, -, he⟩ | ⟨hf, -, -, he⟩ | ⟨hf, hp, hl, he⟩ := execUpdate_cases data s <;>
      rw [exec, he] at h <;> cases h
    · exact .inl ⟨hf, rfl⟩
    · exact .inr (.inl ⟨hf, .uninit, rfl⟩)
    · exact .inr (.inl ⟨hf, .lengthOverflow, rfl⟩)
    · exact .inr (.inr (.inr (.inl ⟨hf, hp, data, rfl, hl, rfl⟩)))
  | digest =>
    obtain ⟨hf, he⟩ | ⟨hf, -, he⟩ | ⟨hf, hp, he⟩ := execDigest_cases s <;> rw [exec, he] at h <;> cases h
    · exact .inl ⟨hf, rfl⟩
    · exact .inr (.inl ⟨hf, .uninit, rfl⟩)
    · exact .inr (.inr (.inr (.inr ⟨hf, hp, rfl, rfl⟩)))
  | illegal op =>
    obtain ⟨hf, he⟩ | ⟨hf, he⟩ := execIllegal_cases op s <;> rw [exec, he] at h <;> cases h
    · exact .inl ⟨hf, rfl⟩
    · exact .inr (.inl ⟨hf, .illegalOpcode, rfl⟩)

/-- No command stops the machine: a fault is entered (R74), not a stop. -/
theorem exec_next (i : Instr) (s : State) : ∃ t, exec i s = .next t := by
  cases i <;> exact ⟨_, rfl⟩

theorem execAll_nil (s : State) : execAll [] s = .next s := rfl

theorem execAll_cons {i : Instr} {s t : State} (is : List Instr) (h : exec i s = .next t) :
    execAll (i :: is) s = execAll is t := by
  rw [execAll, h]

theorem execAll_append {is : List Instr} {s t : State} (js : List Instr) (h : execAll is s = .next t) :
    execAll (is ++ js) s = execAll js t := by
  induction is generalizing s with
  | nil => cases h; rfl
  | cons i is ih =>
    obtain ⟨u, hu⟩ := exec_next i s
    rw [execAll_cons is hu] at h
    rw [List.cons_append, execAll_cons _ hu]
    exact ih h

theorem tailWf_iff {s : State} : s.tailWf = true ↔ s.tailBuf.length = s.tailUsed.toNat := by
  simp [State.tailWf]

/-- In a well-formed state the valid bytes are all of the tail list. -/
theorem validTail_eq {s : State} (h : s.tailWf = true) : validTail s = s.tailBuf := by
  rw [validTail, tailRead, slice_zero, ← tailWf_iff.mp h, List.take_length]

end Sys2Proof.Machine
end

