-- ==== Sys2Proof/Laws/PerInstr.lean ====
section
/-! SUPPORT. Statements for all instructions, one lemma per constructor of `Instr`. -/

namespace Sys2Proof.Machine

theorem takeField_append (v : Word) (rest : List Byte) : takeField (le64Bytes v ++ rest) = some (v, rest) := by
  have h8 : (le64Bytes v).length = 8 := le64Bytes_length v
  have htake : List.take 8 (le64Bytes v ++ rest) = le64Bytes v := by rw [List.take_append_of_le_length h8.ge, ← h8, List.take_length]
  have hdrop : List.drop 8 (le64Bytes v ++ rest) = rest := by rw [List.drop_append_of_le_length h8.ge, ← h8, List.drop_length, List.nil_append]
  have hle : 8 ≤ (le64Bytes v ++ rest).length := by rw [List.length_append, h8]; omega
  rw [takeField, if_pos hle, slice_zero, htake, hdrop, le64_le64Bytes]

/-- A field that has arrived is the 8 bytes of its value. -/
theorem takeField_eq_some {body rest : List Byte} {v : Word} (h : takeField body = some (v, rest)) :
    body = le64Bytes v ++ rest := by
  rw [takeField] at h
  split at h
  · rename_i hle
    simp only [slice_zero, Option.some.injEq, Prod.mk.injEq] at h
    obtain ⟨rfl, rfl⟩ := h
    rw [le64Bytes_le64 (by rw [List.length_take]; omega), List.take_append_drop]
  · cases h

theorem takeField_eq_none {body : List Byte} : takeField body = none ↔ body.length < 8 := by
  rw [takeField]
  split <;> simp <;> omega

end Sys2Proof.Machine

namespace Sys2Proof.Laws.RoundTrip

open Sys2Proof.Machine

/-- Whatever follows a packet, the decoder reads back the command the packet encodes, and stops where it ends. -/
def Statement (i : Instr) : Prop :=
  i.wellFormed = true → ∀ rest, decode (encode i ++ rest) = .ok (i, rest)

theorem init (seed : Word) : Statement (.init seed) := by
  intro _ rest
  show (match takeField (le64Bytes seed ++ rest) with
    | none => Except.error Incomplete.awaitSeed
    | some (seed, rest) => Except.ok (Instr.init seed, rest)) = _
  rw [takeField_append]

theorem update (data : List Byte) : Statement (.update data) := by
  intro hwf rest
  have hlen : (BitVec.ofNat 64 data.length : Word).toNat = data.length := by
    have : data.length ≤ 2 ^ 64 - 1 := of_decide_eq_true hwf
    rw [BitVec.toNat_ofNat, Nat.mod_eq_of_lt (by omega)]
  show (match takeField (le64Bytes (BitVec.ofNat 64 data.length) ++ data ++ rest) with
    | none => Except.error Incomplete.awaitLength
    | some (len, rest) =>
      if len.toNat ≤ rest.length then Except.ok (Instr.update (slice rest 0 len.toNat), rest.drop len.toNat)
      else Except.error Incomplete.awaitData) = _
  rw [List.append_assoc, takeField_append]
  simp [hlen]

theorem digest : Statement .digest := fun _ _ => rfl

theorem illegal (op : Byte) : Statement (.illegal op) := by
  intro hwf rest
  have h : op ≠ opInit ∧ op ≠ opUpdate ∧ op ≠ opDigest := by
    simpa [Instr.wellFormed, isLegalOpcode, opInit, opUpdate, opDigest, and_assoc] using hwf
  show (match formatOf op with
    | .fNone => Except.ok (decodeNone op, rest)
    | .fSeed => _
    | .fData => _) = _
  rw [formatOf, if_neg h.1, if_neg h.2.1, decodeNone, if_neg h.2.2]

end Sys2Proof.Laws.RoundTrip
end

