-- ==== Sys2Proof/Laws/Channel.lean ====
section
/-! SUPPORT. Framing: what the block takes from its command channel, and what a step does with it. -/

namespace Sys2Proof.Machine

@[simp] theorem bytesArrived_sent (bs : List Byte) (es : List HostEvent) :
    bytesArrived (sent bs ++ es) = bs ++ bytesArrived es := by
  induction bs with
  | nil => rfl
  | cons b bs ih => exact congrArg (b :: ·) ih

@[simp] theorem fromReset_sent (bs : List Byte) (es : List HostEvent) :
    fromReset (sent bs ++ es) = fromReset es := by
  induction bs with
  | nil => rfl
  | cons b bs ih => exact ih

/-- The channel is its bytes up to the next reset event, and the rest. -/
theorem sent_bytesArrived (es : List HostEvent) : sent (bytesArrived es) ++ fromReset es = es := by
  induction es with
  | nil => rfl
  | cons e es ih =>
    cases e with
    | byte b => exact congrArg (HostEvent.byte b :: ·) ih
    | reset => rfl

@[simp] theorem sent_length (bs : List Byte) : (sent bs).length = bs.length := List.length_map _

theorem sent_append (as bs : List Byte) : sent (as ++ bs) = sent as ++ sent bs := List.map_append

/-- A channel on which a command decodes. -/
theorem arrival_of_ok {es : List HostEvent} {i : Instr} {rest : List Byte}
    (h : decode (bytesArrived es) = .ok (i, rest)) : arrival es = .packet i (sent rest ++ fromReset es) := by
  rw [arrival, h]

/-- A channel that begins with a packet the decoder reads whole. -/
theorem arrival_of_packet {i : Instr} {es : List HostEvent}
    (h : ∀ rest, decode (encode i ++ rest) = .ok (i, rest)) : arrival (sent (encode i) ++ es) = .packet i es := by
  rw [arrival_of_ok (by rw [bytesArrived_sent]; exact h _), fromReset_sent, sent_bytesArrived]

theorem fromReset_shape (es : List HostEvent) : fromReset es = [] ∨ ∃ rest, fromReset es = .reset :: rest := by
  induction es with
  | nil => exact .inl rfl
  | cons e es ih =>
    cases e with
    | byte b => exact ih
    | reset => exact .inr ⟨es, rfl⟩

theorem arrival_of_incomplete {es : List HostEvent} {e : Incomplete} (h : decode (bytesArrived es) = .error e) :
    arrival es = match fromReset es with
      | [] => .hold
      | _ :: rest => .reset rest := by
  obtain hf | ⟨rest, hf⟩ := fromReset_shape es <;> simp [arrival, h, hf]

/-- Everything a step can do: run the command that has arrived, take a reset, or hold. -/
theorem step_cases (s : State) :
    (∃ i rest, decode (bytesArrived s.channel) = .ok (i, rest) ∧
      step s = exec i { s with channel := sent rest ++ fromReset s.channel }) ∨
    (∃ e rest, decode (bytesArrived s.channel) = .error e ∧ fromReset s.channel = .reset :: rest ∧
      step s = .next (resetBlock { s with channel := rest })) ∨
    (∃ e, decode (bytesArrived s.channel) = .error e ∧ fromReset s.channel = [] ∧ step s = .next s) := by
  cases h : decode (bytesArrived s.channel) with
  | ok p =>
    obtain ⟨i, rest⟩ := p
    exact .inl ⟨i, rest, rfl, by rw [step, arrival_of_ok h]⟩
  | error e =>
    obtain hf | ⟨rest, hf⟩ := fromReset_shape s.channel
    · exact .inr (.inr ⟨e, rfl, hf, by rw [step, arrival_of_incomplete h, hf]⟩)
    · exact .inr (.inl ⟨e, rest, rfl, hf, by rw [step, arrival_of_incomplete h, hf]⟩)

/-- A command never touches the command channel: its packet is already consumed. -/
theorem exec_channel {i : Instr} {s t : State} (h : exec i s = .next t) : t.channel = s.channel := by
  obtain ⟨-, rfl⟩ | ⟨-, c, rfl⟩ | ⟨-, seed, -, rfl⟩ | ⟨-, -, data, -, -, rfl⟩ | ⟨-, -, -, rfl⟩ := exec_cases i s t h <;>
    simp only [refusePacket_channel, raiseFault_channel, performInit_channel, performUpdate_channel,
      performDigest_channel]

/-- The same registers with other channels: another command channel, and unread bytes ahead of the responses. -/
def rehost (channel : List HostEvent) (unread : List Byte) (s : State) : State :=
  { s with channel := channel, responses := unread ++ s.responses }

section Rehost

variable (channel : List HostEvent) (unread : List Byte)

theorem respond_rehost (bytes : List Byte) (s : State) :
    respond bytes (rehost channel unread s) = rehost channel unread (respond bytes s) := by
  simp only [respond, rehost, List.append_assoc]

theorem raiseFault_rehost (c : FaultCause) (s : State) :
    raiseFault c (rehost channel unread s) = rehost channel unread (raiseFault c s) :=
  respond_rehost channel unread _ { s with faultCause := faultCode c }

theorem refusePacket_rehost (s : State) :
    refusePacket (rehost channel unread s) = rehost channel unread (refusePacket s) :=
  respond_rehost channel unread _ s

theorem tailWrite_rehost (off : Nat) (bytes : List Byte) (s : State) :
    tailWrite off bytes (rehost channel unread s) = rehost channel unread (tailWrite off bytes s) := rfl

theorem setTailUsed_rehost (n : Nat) (s : State) :
    setTailUsed n (rehost channel unread s) = rehost channel unread (setTailUsed n s) := rfl

theorem setAcc_rehost (a : Accumulators) (s : State) :
    setAcc a (rehost channel unread s) = rehost channel unread (setAcc a s) := rfl

theorem foldTail_rehost (s : State) :
    foldTail (rehost channel unread s) = rehost channel unread (foldTail s) := by
  rw [foldTail, foldTail, ← setTailUsed_rehost, ← setAcc_rehost]
  rfl

theorem appendToTail_rehost (data : List Byte) (s : State) :
    appendToTail data (rehost channel unread s) = rehost channel unread (appendToTail data s) := rfl

theorem completeTail_rehost (data : List Byte) (s : State) :
    completeTail data (rehost channel unread s) = rehost channel unread (completeTail data s) := by
  rw [completeTail, completeTail, apply_ite (rehost channel unread), ← foldTail_rehost, ← tailWrite_rehost]
  rfl

theorem foldInput_rehost (input : List Byte) (s : State) :
    foldInput input (rehost channel unread s) = rehost channel unread (foldInput input s) := by
  rw [foldInput, foldInput, ← setTailUsed_rehost, ← tailWrite_rehost, ← setAcc_rehost]
  rfl

theorem addTotalLen_rehost (len : Nat) (s : State) :
    addTotalLen len (rehost channel unread s) = rehost channel unread (addTotalLen len s) := rfl

theorem performInit_rehost (seed : Word) (s : State) :
    performInit seed (rehost channel unread s) = rehost channel unread (performInit seed s) := by
  rw [performInit, performInit, respondOk, respondOk, ← respond_rehost]
  rfl

theorem performUpdate_rehost (data : List Byte) (s : State) :
    performUpdate data (rehost channel unread s) = rehost channel unread (performUpdate data s) := by
  rw [performUpdate, performUpdate, respondOk, respondOk, ← respond_rehost, apply_ite (rehost channel unread),
    ← appendToTail_rehost, ← foldInput_rehost, ← completeTail_rehost, ← addTotalLen_rehost]
  rfl

theorem performDigest_rehost (s : State) :
    performDigest (rehost channel unread s) = rehost channel unread (performDigest s) := by
  rw [performDigest, performDigest, ← respond_rehost]
  rfl

theorem unlessFaulted_rehost (s go : State) :
    unlessFaulted (rehost channel unread s) (rehost channel unread go) = rehost channel unread (unlessFaulted s go) := by
  rw [unlessFaulted, unlessFaulted, apply_ite (rehost channel unread), refusePacket_rehost]
  rfl

theorem whenReady_rehost (s go : State) :
    whenReady (rehost channel unread s) (rehost channel unread go) = rehost channel unread (whenReady s go) := by
  rw [whenReady, whenReady, apply_ite (rehost channel unread), raiseFault_rehost]
  rfl

theorem whenLengthFits_rehost (s : State) (len : Nat) (go : State) :
    whenLengthFits (rehost channel unread s) len (rehost channel unread go) =
      rehost channel unread (whenLengthFits s len go) := by
  rw [whenLengthFits, whenLengthFits, apply_ite (rehost channel unread), raiseFault_rehost]
  rfl

/-- A command does the same to the registers whatever its channels hold (R25, R89). -/
theorem exec_rehost {i : Instr} {s t : State} (h : exec i s = .next t) :
    exec i (rehost channel unread s) = .next (rehost channel unread t) := by
  cases i with
  | init seed =>
    cases h
    rw [exec, execInit, performInit_rehost, unlessFaulted_rehost]
  | update data =>
    cases h
    rw [exec, execUpdate, performUpdate_rehost, whenLengthFits_rehost, whenReady_rehost, unlessFaulted_rehost]
  | digest =>
    cases h
    rw [exec, execDigest, performDigest_rehost, whenReady_rehost, unlessFaulted_rehost]
  | illegal op =>
    cases h
    rw [exec, execIllegal, raiseFault_rehost, unlessFaulted_rehost]

end Rehost

/-- A run of `n + 1` steps is a step and a run of `n`. -/
theorem run_succ {s t : State} (n : Nat) (h : step s = .next t) :
    Host.Core.run core (n + 1) s = Host.Core.run core n t := by
  have h' : core.step s = .next t := h
  simp only [Host.Core.run, h']

theorem fromReset_eq_nil {es : List HostEvent} (h : .reset ∉ es) : fromReset es = [] := by
  induction es with
  | nil => rfl
  | cons e es ih =>
    cases e with
    | byte b => exact ih fun hm => h (.tail _ hm)
    | reset => exact absurd (.head _) h

theorem reset_notMem_sent (bs : List Byte) : HostEvent.reset ∉ sent bs := by simp [sent]

/-- With no reset event on the channel, a step runs the command that has arrived or holds, and brings none there. -/
theorem step_cases_of_no_reset {s t : State} (hr : .reset ∉ s.channel) (h : step s = .next t) :
    .reset ∉ t.channel ∧ ((∃ i rest, decode (bytesArrived s.channel) = .ok (i, rest) ∧
      exec i { s with channel := sent rest } = .next t) ∨ t = s) := by
  obtain ⟨i, rest, hd, hs⟩ | ⟨e, rest, -, hf, -⟩ | ⟨e, -, -, hs⟩ := step_cases s
  · rw [hs, fromReset_eq_nil hr, List.append_nil] at h
    exact ⟨by rw [exec_channel h]; exact reset_notMem_sent rest, .inl ⟨i, rest, hd, h⟩⟩
  · rw [fromReset_eq_nil hr] at hf
    cases hf
  · rw [hs] at h
    cases h
    exact ⟨hr, .inr rfl⟩

/-- With no reset event on the channel, a faulted block keeps its cause through a step (R75, R76). -/
theorem step_faultCause_of_no_reset {s t : State} (hr : .reset ∉ s.channel) (hf : s.faultCause ≠ codeNone)
    (h : step s = .next t) : t.faultCause = s.faultCause := by
  obtain ⟨-, ⟨i, rest, -, he⟩ | rfl⟩ := step_cases_of_no_reset hr h
  · rw [exec_of_faulted i (s := { s with channel := sent rest }) hf] at he
    cases he
    rfl
  · rfl

/-- A decoded packet takes at least its opcode byte. -/
theorem decode_rest_length {bs rest : List Byte} {i : Instr} (h : decode bs = .ok (i, rest)) :
    rest.length < bs.length := by
  cases bs with
  | nil => cases h
  | cons op body =>
    simp only [decode] at h
    split at h
    · cases h
      simp
    · split at h
      · cases h
      · rename_i hf
        cases h
        rw [takeField_eq_some hf]
        simp only [List.length_cons, List.length_append, le64Bytes_length]
        omega
    · split at h
      · cases h
      · rename_i hf
        split at h
        · cases h
          rw [takeField_eq_some hf]
          simp only [List.length_cons, List.length_append, le64Bytes_length, List.length_drop]
          omega
        · cases h

end Sys2Proof.Machine
end

