-- ==== Sys2Proof/Laws/Update.lean ====
section
/-! SUPPORT. UPDATE as one fold: the fast path, the tail completion, the direct blocks and the remainder of R53
together fold the whole blocks of the old tail followed by the data, and keep what is left. -/

namespace Sys2Proof.Machine

open Sys2Proof.Config (blockSize)

/-- The state a fold of `input` (the old tail and the data) leaves. -/
def afterFold (data input : List Byte) (s : State) : State :=
  { s with
    totalLen := s.totalLen + BitVec.ofNat 64 data.length
    acc := foldWhole blockSize stripe s.acc input
    tailBuf := remainder blockSize input
    tailUsed := BitVec.ofNat 5 (remainder blockSize input).length }

theorem foldInput_eq (input : List Byte) (s : State) :
    foldInput input s = { s with
      acc := foldWhole blockSize stripe s.acc input
      tailBuf := remainder blockSize input
      tailUsed := BitVec.ofNat 5 (remainder blockSize input).length } := by
  simp [foldInput, setTailUsed, tailWrite, setAcc]

theorem appendToTail_eq (data : List Byte) (s : State) (h : s.tailBuf.length = s.tailUsed.toNat) :
    appendToTail data s = { s with
      tailBuf := s.tailBuf ++ data
      tailUsed := BitVec.ofNat 5 (s.tailBuf ++ data).length } := by
  simp [appendToTail, setTailUsed, tailWrite, ← h]

theorem completeTail_eq (data : List Byte) (s : State) (h : s.tailBuf.length = s.tailUsed.toNat)
    (hpos : 0 < s.tailUsed.toNat) (hlen : blockSize ≤ s.tailUsed.toNat + data.length) :
    completeTail data s = { s with
      acc := stripe s.acc ((s.tailBuf ++ data).take blockSize), tailBuf := [], tailUsed := 0#5 } := by
  have hlt : s.tailUsed.toNat < blockSize := s.tailUsed.isLt
  have htake : List.take blockSize (s.tailBuf ++ data) = s.tailBuf ++ data.take (blockSize - s.tailUsed.toNat) := by
    rw [List.take_append, h, List.take_of_length_le (by omega)]
  have hfull : (s.tailBuf ++ data.take (blockSize - s.tailUsed.toNat)).length = blockSize := by
    rw [List.length_append, List.length_take, h]; omega
  simp only [completeTail, hpos, if_true, completionLength, slice_zero, htake]
  simp only [foldTail, setTailUsed, setAcc, tailWrite, tailRead, slice_zero, ← h, List.take_length]
  rw [List.take_of_length_le (by rw [h]; exact hfull.le)]
  simp

/-- UPDATE's body folds the whole blocks of the old tail followed by the data (R53, R57). -/
theorem performUpdate_eq (data : List Byte) (s : State) (h : s.tailWf = true) :
    performUpdate data s = respondOk (afterFold data (s.tailBuf ++ data) s) := by
  have hw := tailWf_iff.mp h
  have hlt : s.tailUsed.toNat < blockSize := s.tailUsed.isLt
  rw [performUpdate]
  congr 1
  by_cases hshort : s.tailUsed.toNat + data.length < blockSize
  · have hlen : (s.tailBuf ++ data).length < blockSize := by rw [List.length_append, hw]; exact hshort
    rw [if_pos hshort, appendToTail_eq _ (addTotalLen _ s) hw, afterFold, foldWhole_of_lt _ _ hlen,
      remainder_of_lt hlen]
    rfl
  · have hlen : blockSize ≤ s.tailUsed.toNat + data.length := Nat.le_of_not_lt hshort
    rw [if_neg hshort]
    by_cases hpos : 0 < s.tailUsed.toNat
    · have hdrop : List.drop blockSize (s.tailBuf ++ data) = data.drop (blockSize - s.tailUsed.toNat) := by
        rw [List.drop_append, hw, List.drop_of_length_le (by omega), List.nil_append]
      have hlen' : blockSize ≤ (s.tailBuf ++ data).length := by rw [List.length_append, hw]; exact hlen
      rw [completeTail_eq data (addTotalLen _ s) hw hpos hlen, foldInput_eq, afterFold,
        foldWhole_of_le stripe (by decide) s.acc hlen', remainder_of_le (by decide) hlen', hdrop]
      simp [completionLength, hpos, addTotalLen]
    · have hzero : s.tailUsed.toNat = 0 := by omega
      have hnil : s.tailBuf = [] := List.eq_nil_of_length_eq_zero (by rw [hw, hzero])
      rw [foldInput_eq, afterFold]
      simp [completeTail, completionLength, hzero, hnil, addTotalLen]

end Sys2Proof.Machine
end

