-- ==== Sys2Proof/Laws/Stream.lean ====
section
/-! SUPPORT. The stream characterisation (R57): what each command's body does to it. -/

namespace Sys2Proof.Machine

open Sys2Proof.Config (blockSize maxLength)

/-- `A_k` of R57 is the fold of the first `k` blocks. -/
theorem streamAcc_eq (seed : Word) (stream : List Byte) (k : Nat) :
    streamAcc seed stream k = foldChunks blockSize stripe k (initAcc seed) stream := by
  induction k with
  | zero => rfl
  | succ k ih => rw [streamAcc, ih, foldChunks_last]

/-- The accumulators after all whole blocks of the stream. -/
theorem streamAcc_whole (seed : Word) (stream : List Byte) :
    streamAcc seed stream (stream.length / blockSize) = foldWhole blockSize stripe (initAcc seed) stream :=
  streamAcc_eq seed stream _

theorem streamTail_eq (stream : List Byte) : streamTail stream = remainder blockSize stream := rfl

/-- `Streamed` reads only the data registers. -/
theorem Streamed.of_same {seed : Word} {stream : List Byte} {s t : State} (h : Streamed seed stream s)
    (hseed : t.seed = s.seed) (hacc : t.acc = s.acc) (hlen : t.totalLen = s.totalLen)
    (htail : t.tailBuf = s.tailBuf) (hused : t.tailUsed = s.tailUsed) : Streamed seed stream t where
  seed_eq := hseed.trans h.seed_eq
  totalLen_eq := hlen.trans h.totalLen_eq
  tailUsed_eq := by rw [hused, h.tailUsed_eq]
  tailBuf_eq := htail.trans h.tailBuf_eq
  acc_eq := hacc.trans h.acc_eq

theorem Streamed.tailWf {seed : Word} {stream : List Byte} {s : State} (h : Streamed seed stream s) :
    s.tailWf = true := by
  rw [tailWf_iff, h.tailBuf_eq, streamTail_eq, remainder_length, h.tailUsed_eq]

theorem Streamed.respond {seed : Word} {stream : List Byte} {s : State} (h : Streamed seed stream s)
    (bytes : List Byte) : Streamed seed stream (respond bytes s) := h.of_same rfl rfl rfl rfl rfl

/-- INIT starts an empty stream (R51). -/
theorem performInit_streamed (seed : Word) (s : State) : Streamed seed [] (performInit seed s) where
  seed_eq := rfl
  totalLen_eq := rfl
  tailUsed_eq := rfl
  tailBuf_eq := by simp [streamTail]
  acc_eq := rfl

theorem performUpdate_tailWf (data : List Byte) (s : State) (h : s.tailWf = true) :
    (performUpdate data s).tailWf = true := by
  rw [performUpdate_eq data s h, tailWf_iff]
  simp only [respondOk_tailBuf, respondOk_tailUsed, afterFold, BitVec.toNat_ofNat, remainder_length]
  have : (s.tailBuf ++ data).length % blockSize < 32 := Nat.mod_lt _ (by decide)
  omega

/-- UPDATE appends its data to the stream (R57). -/
theorem performUpdate_streamed {seed : Word} {stream : List Byte} {s : State} (h : Streamed seed stream s)
    (data : List Byte) : Streamed seed (stream ++ data) (performUpdate data s) := by
  have hlen : (remainder blockSize (s.tailBuf ++ data)).length = (stream ++ data).length % blockSize := by
    rw [h.tailBuf_eq, streamTail_eq, ← remainder_append (by decide), remainder_length]
  have hmod : (stream ++ data).length % blockSize < 32 := Nat.mod_lt _ (by decide)
  rw [performUpdate_eq data s h.tailWf]
  refine ⟨h.seed_eq, ?_, ?_, ?_, ?_⟩
  · simp [respondOk, respond, afterFold, h.totalLen_eq, BitVec.ofNat_add]
  · simp only [respondOk_tailUsed, afterFold, hlen, BitVec.toNat_ofNat]
    omega
  · simp only [respondOk_tailBuf, afterFold, h.tailBuf_eq, streamTail_eq]
    exact (remainder_append (by decide) _ _).symm
  · simp only [respondOk_acc, afterFold, h.acc_eq, h.tailBuf_eq, streamTail_eq, streamAcc_whole]
    exact (foldWhole_append stripe (by decide) _ _ _).symm

/-- In a state whose data registers are those of a stream, the digest is the stream's hash (R67). -/
theorem digestOf_streamed {seed : Word} {stream : List Byte} {s : State} (h : Streamed seed stream s) :
    digestOf s = xxh64 seed stream := by
  rw [digestOf, validTail_eq h.tailWf, h.totalLen_eq, h.acc_eq, h.tailBuf_eq, xxh64]

end Sys2Proof.Machine
end

