-- ==== Sys2Proof/Tests/Slice0.lean ====
section
/-! SUPPORT. The model's own tests: ill-formed terms, packets written out from the spec, the spec's vectors
(spec/95_test_vectors.md, cited by id), and for every statement with hypotheses a witness that they can be met
together. -/

namespace Sys2Proof.Tests

open Sys2Proof.Machine

/-- The next state of an outcome. -/
def after (o : Host.Outcome State Fault Refusal) : Option State :=
  match o with
  | .next t => some t
  | .fault _ => none
  | .refused _ => none

/-- The block after `INIT 0` from power-on. -/
def ready : State := performInit 0#64 State.reset

/-- READY with the largest tail, 31 bytes (V-UPD-2). -/
def tail31 : State :=
  { ready with totalLen := 31#64, tailBuf := (List.range 31).map (BitVec.ofNat 8), tailUsed := 31#5 }

/-- READY with TOTAL_LEN = 0xFFFFFFFFFFFFFFF0 (V-FLT-9, V-FLT-10). -/
def nearOverflow : State :=
  { ready with totalLen := 0xFFFFFFFFFFFFFFF0#64, tailBuf := List.replicate 16 0#8, tailUsed := 16#5 }

/-- A faulted block (V-FLT-14). -/
def faulted : State := { ready with faultCause := 0x01#8 }

/-- Bytes 0..n-1. -/
def bytesTo (n : Nat) : List Byte := (List.range n).map (BitVec.ofNat 8)

/-! ### Ill-formed terms are refused by the check -/

theorem test_illegal_with_a_legal_opcode_is_ill_formed :
    (Instr.illegal 0x01#8).wellFormed = false ∧ (Instr.illegal 0x02#8).wellFormed = false ∧
      (Instr.illegal 0x03#8).wellFormed = false := by decide

theorem test_update_longer_than_its_length_field_is_ill_formed :
    (Instr.update (List.replicate (2 ^ 64) 0#8)).wellFormed = false := by
  simp only [Instr.wellFormed, List.length_replicate]
  decide

/-! ### Packets written out byte by byte from R31 to R36 -/

/-- V-ENC-3. -/
theorem test_decode_init : decode [0x01#8, 0xEF#8, 0xCD#8, 0xAB#8, 0x89#8, 0x67#8, 0x45#8, 0x23#8, 0x01#8, 0x03#8] =
    .ok (.init 0x0123456789ABCDEF#64, [0x03#8]) := rfl

/-- R33: L = 2, then two data bytes; the byte after them is the next packet's. -/
theorem test_decode_update : decode [0x02#8, 2#8, 0#8, 0#8, 0#8, 0#8, 0#8, 0#8, 0#8, 7#8, 8#8, 9#8] =
    .ok (.update [7#8, 8#8], [9#8]) := rfl

/-- V-ENC-7's length field: L = 256 is the bytes 00 01 00 .. 00. -/
theorem test_encode_length_field : le64Bytes 256#64 = [0#8, 1#8, 0#8, 0#8, 0#8, 0#8, 0#8, 0#8] := by decide

theorem test_decode_digest : decode [0x03#8, 0x03#8] = .ok (.digest, [0x03#8]) := rfl

/-- R36: both ends of the illegal range. -/
theorem test_decode_illegal : decode [0x00#8] = .ok (.illegal 0x00#8, []) ∧
    decode [0x04#8, 0x01#8] = .ok (.illegal 0x04#8, [0x01#8]) ∧ decode [0xFF#8] = .ok (.illegal 0xFF#8, []) :=
  ⟨rfl, rfl, rfl⟩

/-- R40 case (c): what the decoder waits for. -/
theorem test_decode_incomplete : decode [] = .error .awaitOpcode ∧ decode [0x01#8, 0#8] = .error .awaitSeed ∧
    decode [0x02#8, 5#8] = .error .awaitLength ∧
    decode [0x02#8, 5#8, 0#8, 0#8, 0#8, 0#8, 0#8, 0#8, 0#8, 1#8, 2#8] = .error .awaitData := ⟨rfl, rfl, rfl, rfl⟩

/-- The rows of spec/opcode_table.json; the second UPDATE gives L = 3 in its length field. -/
theorem test_table_words : decodeTableWord 8 0x01 = some (.init 0#64) ∧ decodeTableWord 8 0x02 = some (.update []) ∧
    decodeTableWord 72 0x0302 = some (.update [0#8, 0#8, 0#8]) ∧ decodeTableWord 8 0x03 = some .digest ∧
    decodeTableWord 8 0x80 = some (.illegal 0x80#8) := by decide

theorem test_fetch_word_runs_first :
    (after (step (State.reset.withFetchWord 72 0x0501))).map (fun s => (s.seed, s.phase, s.channel)) =
      some (5#64, .ready, []) := by decide

/-- R41: an item list, a range, a text; and lines that are no assembly. -/
theorem test_assembly_text : parseLine "update [1, 0x10..0x12, 255]" = some (.update [1#8, 0x10#8, 0x11#8, 0x12#8, 0xFF#8]) ∧
    parseLine "UPDATE \"abc\"" = some (.update [0x61#8, 0x62#8, 0x63#8]) ∧
    parseLine "UPDATE [256]" = none ∧ parseLine "INIT 0x10000000000000000" = none := by decide

/-- R41's range among other items, in both spellings (log 14), and an item list that does not close. -/
theorem test_assembly_range_in_a_list :
    parseLine "UPDATE [1, [2..4], 9]" = some (.update [1#8, 2#8, 3#8, 4#8, 9#8]) ∧
    parseLine "UPDATE [1, [2..4]]" = parseLine "UPDATE [1, 2..4]" ∧ parseLine "UPDATE [1, [2..4]" = none := by decide

/-! ### The mixing unit -/

/-- V-MIX-4, 12, 17, 19. -/
theorem test_mixing_unit : rotl64 0x0123456789ABCDEF#64 31 = 0xC4D5E6F78091A2B3#64 ∧
    laneRound Config.primes.prime1 Config.primes.prime2 = 0x1B0917BC8762A770#64 ∧
    laneMerge 1#64 0xFFFFFFFFFFFFFFFF#64 = 0xA812A429A62129ED#64 ∧
    avalanche 1#64 = 0x283A72A5B9AB93D3#64 := by decide

/-! ### The commands -/

/-- V-INIT, seed PRIME1: ACC1 wraps and ACC4 = 0. -/
theorem test_init_prime1 : (after (exec (.init 0x9E3779B185EBCA87#64) tail31)).map
      (fun s => (s.acc.acc1, s.acc.acc4, s.totalLen, s.tailUsed, s.tailBuf)) =
    some (0xFF21A1A033AC805D#64, 0#64, 0#64, 0#5, []) := by decide

/-- V-FLT-14. -/
theorem test_init_refused_when_faulted : (after (exec (.init 0#64) faulted)).map
    (fun s => (s.faultCause, s.responses)) = some (0x01#8, ready.responses ++ [0x01#8]) := by decide

/-- P4: a 31-byte tail, then two bytes: step 3 completes the tail and step 5 keeps one byte. Seed 0x0123456789ABCDEF. -/
theorem test_update_completes_tail : (after (exec (.update [0x1F#8, 0x20#8])
      { tail31 with acc := initAcc 0x0123456789ABCDEF#64 })).map (fun s => (s.acc, s.totalLen, s.tailUsed, s.tailBuf)) =
    some (⟨0x4DCD1B4950EA68FE#64, 0xBB22A4F4B62DFA4D#64, 0xC27619AB5F0C2A2B#64, 0x919429A53E63F0F3#64⟩, 33#64, 1#5,
      [0x20#8]) := by decide

/-- V-UPD-6: three direct blocks and a 4-byte remainder. -/
theorem test_update_folds_blocks : (after (exec (.update (bytesTo 100)) ready)).map
      (fun s => (s.acc, s.totalLen, s.tailUsed, s.tailBuf)) =
    some (⟨0x4D87261020D8B1D4#64, 0xF6A48A6C81681DEE#64, 0xD18838B7423E5790#64, 0x2B1E854BD2CDFC3C#64⟩, 100#64, 4#5,
      [0x60#8, 0x61#8, 0x62#8, 0x63#8]) := by decide

/-- V-DIG, n = 31: the largest tail on the short branch, every kind of tail pass. -/
theorem test_digest_tail31 : digestOf tail31 = 0xC346D2B59B4D8EE1#64 := by decide

/-- V-DIG, n = 47: the long branch, with every kind of tail pass. -/
theorem test_digest_47 : xxh64 0#64 (bytesTo 47) = 0x0D9883A03E7BFBB8#64 := by decide

/-- V-FLT-8: in UNINIT the illegal opcode is reported, not F_UNINIT. -/
theorem test_illegal_in_uninit : (after (step { State.reset with channel := sent [0x80#8] })).map
    (fun s => (s.faultCause, s.phase, s.responses)) = some (0x01#8, .uninit, [0x01#8]) := by decide

/-- V-FLT-9 and V-FLT-10: one byte past the counter faults, the last byte that fits does not. -/
theorem test_length_overflow : (after (exec (.update (bytesTo 16)) nearOverflow)).map (·.faultCause) = some 0x03#8 ∧
    (after (exec (.update (bytesTo 15)) nearOverflow)).map (fun s => (s.faultCause, s.totalLen, s.tailUsed)) =
      some (0x00#8, 0xFFFFFFFFFFFFFFFF#64, 31#5) := by decide

/-- V-FLT-17, V-FLT-18: an incomplete UPDATE holds; reset discards it. -/
theorem test_hold_and_reset :
    after (step { ready with channel := sent [2#8, 5#8, 0#8, 0#8, 0#8, 0#8, 0#8, 0#8, 0#8, 1#8, 2#8] }) =
      some { ready with channel := sent [2#8, 5#8, 0#8, 0#8, 0#8, 0#8, 0#8, 0#8, 0#8, 1#8, 2#8] } ∧
    (after (step ({ ready with channel := sent [2#8, 5#8] }.hostReset))).map (fun s => (s.phase, s.channel)) =
      some (.uninit, []) := by decide

/-! ### Witnesses: the hypotheses of each statement are met together -/

theorem test_witness_wellFormed : (Instr.init 0xFFFFFFFFFFFFFFFF#64).wellFormed = true ∧
    (Instr.update []).wellFormed = true ∧ (Instr.update (bytesTo 33)).wellFormed = true ∧
    Instr.digest.wellFormed = true ∧ (Instr.illegal 0x00#8).wellFormed = true ∧
    (Instr.illegal 0x04#8).wellFormed = true ∧ (Instr.illegal 0xFF#8).wellFormed = true := by decide

theorem test_witness_DecodeOfEncodeIsTheCommand : (Instr.update [42#8]).wellFormed = true := by decide

theorem test_witness_DecodedBytesAreThePacket : decode [0x03#8, 0x05#8] = .ok (.digest, [0x05#8]) := rfl

theorem test_witness_UpdateLengthFieldCountsTheData : (bytesTo 3).length =
    (0#8 ++ 0#8 ++ 0#8 ++ 0#8 ++ 0#8 ++ 0#8 ++ 0#8 ++ 3#8).toNat ∧
    ([] : List Byte).length = (0#8 ++ 0#8 ++ 0#8 ++ 0#8 ++ 0#8 ++ 0#8 ++ 0#8 ++ 0#8).toNat := by decide

theorem test_witness_OneByteOpcodesDecode : (0x00#8 = (0x00#8 : Byte) ∨ 0x04 ≤ (0x00#8 : Byte).toNat) ∧
    0x04 ≤ (0x04#8 : Byte).toNat ∧ 0x04 ≤ (0xFF#8 : Byte).toNat := by decide

theorem test_witness_RotationMovesEachBit : (1 ≤ 1 ∧ 1 ≤ 63) ∧ (1 ≤ 63 ∧ 63 ≤ 63) ∧ 0 < 64 ∧ 63 < 64 := by decide

theorem test_witness_StripeMixesEachLaneAlone : (bytesTo 32).length = 32 := by decide

theorem test_witness_AvalancheIsBijective : ∃ h h1 h2 h3 h4 : Word, h1 = h ^^^ (h >>> 33) ∧
    h2 = h1 * Config.primes.prime2 ∧ h3 = h2 ^^^ (h2 >>> 29) ∧ h4 = h3 * Config.primes.prime3 :=
  ⟨1#64, _, _, _, _, rfl, rfl, rfl, rfl⟩

/-- Both clauses: a block that is not faulted, in each phase, and a faulted one. -/
theorem test_witness_InitLoadsTheRegisters : State.reset.faultCause = 0x00#8 ∧ ready.faultCause = 0x00#8 ∧
    faulted.faultCause ≠ 0x00#8 := by decide

theorem test_witness_SeedFixesTheEmptyDigest : tail31.faultCause = 0x00#8 := by decide

/-- At the largest length that fits. -/
theorem test_witness_UpdateFoldsTailThenData : nearOverflow.tailWf = true ∧ nearOverflow.faultCause = 0x00#8 ∧
    nearOverflow.phase = .ready ∧ nearOverflow.totalLen.toNat + (bytesTo 15).length ≤ 2 ^ 64 - 1 := by decide

/-- Each path of R53 at its boundary: TAIL_USED + L = 31, TAIL_USED + L = 32 with a partly filled tail, and L = 32 with an
empty tail. -/
theorem test_witness_UpdateFollowsItsSteps :
    (tail31.tailWf = true ∧ tail31.faultCause = 0x00#8 ∧ tail31.phase = .ready ∧
      tail31.totalLen.toNat + (bytesTo 1).length ≤ 2 ^ 64 - 1 ∧ tail31.tailUsed.toNat + 0 < 32) ∧
    (32 ≤ tail31.tailUsed.toNat + (bytesTo 1).length ∧ 0 < tail31.tailUsed.toNat) ∧
    (ready.tailWf = true ∧ ready.faultCause = 0x00#8 ∧ ready.phase = .ready ∧ ready.tailUsed.toNat = 0 ∧
      ready.totalLen.toNat + (bytesTo 32).length ≤ 2 ^ 64 - 1 ∧
      32 ≤ ready.tailUsed.toNat + (bytesTo 32).length) := by decide

theorem test_witness_UpdateFoldsEachBlockOnce : tail31.tailWf = true ∧ tail31.faultCause = 0x00#8 ∧
    tail31.phase = .ready ∧ tail31.totalLen.toNat + (bytesTo 40).length ≤ 2 ^ 64 - 1 ∧
    (∃ t, exec (.update (bytesTo 40)) tail31 = .next t) ∧ 1 < (tail31.tailUsed.toNat + (bytesTo 40).length) / 32 :=
  ⟨by decide, by decide, by decide, by decide, ⟨_, rfl⟩, by decide⟩

theorem test_witness_TailUsedStaysBelowThirtyTwo : tail31.tailWf = true ∧ tail31.phase = .ready ∧
    ∃ t, exec (.update [0x1F#8]) tail31 = .next t ∧ t.faultCause = 0x00#8 :=
  ⟨by decide, by decide, _, rfl, by decide⟩

theorem test_witness_EmptyUpdateChangesNothing : (tail31.faultCause = 0x00#8 ∧ tail31.tailWf = true ∧
    tail31.phase = .ready) ∧ State.reset.faultCause = 0x00#8 ∧ State.reset.phase = .uninit := by decide

/-- A split with an empty piece and a piece that ends in the middle of a block. -/
theorem test_witness_ChunkingDoesNotMatter : tail31.tailWf = true ∧ tail31.faultCause = 0x00#8 ∧
    tail31.phase = .ready ∧ tail31.totalLen.toNat + [bytesTo 3, [], bytesTo 40].flatten.length ≤ 2 ^ 64 - 1 := by
  decide

theorem clean_tail31 : Clean 0#64 (bytesTo 31) tail31 where
  length_le := by decide
  ready := rfl
  noFault := rfl
  streamed := { seed_eq := rfl, totalLen_eq := rfl, tailUsed_eq := rfl, tailBuf_eq := rfl, acc_eq := rfl }

theorem test_witness_UpdateExtendsTheStream : Clean 0#64 (bytesTo 31) tail31 ∧
    (bytesTo 31).length + (bytesTo 2).length ≤ 2 ^ 64 - 1 := ⟨clean_tail31, by decide⟩

theorem test_witness_StreamDeterminesTheRegisters : State.reset.faultCause = 0x00#8 ∧
    (∀ c ∈ [Instr.update (bytesTo 31), .digest, .update []], continuesStream c = true) ∧
    ([Instr.update (bytesTo 31), .digest, .update []].flatMap streamOf).length ≤ 2 ^ 64 - 1 := by decide

/-- Each clause: an UPDATE that does not fault, one that does, and INIT. -/
theorem test_witness_TotalLengthCountsEveryByte :
    (tail31.tailWf = true ∧ ∃ t, exec (.update [1#8]) tail31 = .next t ∧ t.faultCause = 0x00#8) ∧
    (nearOverflow.tailWf = true ∧ ∃ t, exec (.update (bytesTo 16)) nearOverflow = .next t ∧ t.faultCause ≠ 0x00#8) ∧
    ready.faultCause = 0x00#8 :=
  ⟨⟨by decide, _, rfl, by decide⟩, ⟨by decide, _, rfl, by decide⟩, by decide⟩

/-- Each clause: READY, UNINIT, and faulted. -/
theorem test_witness_DigestRespondsWithTheHash : (tail31.tailWf = true ∧ tail31.faultCause = 0x00#8 ∧
    tail31.phase = .ready) ∧ (State.reset.faultCause = 0x00#8 ∧ State.reset.phase = .uninit) ∧
    faulted.faultCause ≠ 0x00#8 := by decide

/-- Both branches, at the boundary. -/
theorem test_witness_ConvergeTestsTotalLength : 32 ≤ (32#64 : Word).toNat ∧ (31#64 : Word).toNat < 32 := by decide

/-- The largest tail: three lanes, a word and three bytes; and no word at all. -/
theorem test_witness_TailPassesConsumeInOrder :
    (∀ lane ∈ [bytesTo 8, bytesTo 8, bytesTo 8], lane.length = 8) ∧
    (bytesTo 4 = [] ∨ (bytesTo 4).length = 4) ∧ (([] : List Byte) = [] ∨ ([] : List Byte).length = 4) ∧
    (bytesTo 3).length < 4 := by decide

theorem test_witness_DigestIsAPureRead : tail31.faultCause = 0x00#8 ∧ tail31.phase = .ready := by decide

theorem test_witness_MidStreamDigestDoesNotCutTheStream : State.reset.faultCause = 0x00#8 ∧
    (bytesTo 40 ++ bytesTo 60).length ≤ 2 ^ 64 - 1 := by decide

theorem test_witness_ShortBranchStartsFromTheSeed : Clean 0#64 (bytesTo 31) tail31 ∧ tail31.totalLen.toNat < 32 :=
  ⟨clean_tail31, by decide⟩

theorem test_witness_DigestDependsOnSeedAndStreamAlone : ready.faultCause = 0x00#8 ∧
    (∀ c ∈ [Instr.digest, .update (bytesTo 33)], continuesStream c = true) ∧
    ([Instr.digest, .update (bytesTo 33)].flatMap streamOf).length ≤ 2 ^ 64 - 1 := by decide

/-- Both clauses, the second at both ends of the illegal range and in both phases. -/
theorem test_witness_IllegalOpcodeRaisesItsFault : ready.faultCause = 0x00#8 ∧ State.reset.faultCause = 0x00#8 ∧
    ((0x00#8 : Byte) ≠ 0x01#8 ∧ (0x00#8 : Byte) ≠ 0x02#8 ∧ (0x00#8 : Byte) ≠ 0x03#8) ∧
    ((0x04#8 : Byte) ≠ 0x01#8 ∧ (0x04#8 : Byte) ≠ 0x02#8 ∧ (0x04#8 : Byte) ≠ 0x03#8) ∧
    ({ ready with channel := [.byte 0x00#8] } : State).channel = .byte 0x00#8 :: [] := by decide

theorem test_witness_UseBeforeInitRaisesItsFault : State.reset.faultCause = 0x00#8 ∧ State.reset.phase = .uninit := by
  decide

theorem test_witness_LengthOverflowRaisesItsFault : nearOverflow.faultCause = 0x00#8 ∧ nearOverflow.phase = .ready ∧
    nearOverflow.totalLen.toNat + (bytesTo 16).length > 2 ^ 64 - 1 := by decide

theorem test_witness_FaultsArePrecise : ∃ s t i rest, decode (bytesArrived s.channel) = .ok (i, rest) ∧
    step s = .next t ∧ s.faultCause = 0x00#8 ∧ t.faultCause ≠ 0x00#8 :=
  ⟨{ State.reset with channel := sent [0x03#8, 0x05#8] }, _, .digest, [0x05#8], rfl, rfl, rfl, by decide⟩

theorem test_witness_FaultedBlockRefusesEveryPacket : faulted.faultCause ≠ 0x00#8 ∧
    decode (bytesArrived { faulted with channel := sent [0x03#8] }.channel) = .ok (.digest, []) := ⟨by decide, rfl⟩

/-- Both clauses: a faulted state with a packet to come, and a run that faults on its way. -/
theorem test_witness_FaultRefutesAGoodOutcome :
    .reset ∉ ({ faulted with channel := sent [0x03#8] } : State).channel ∧ faulted.faultCause ≠ 0x00#8 ∧
    (∃ t, Host.Core.run core 1 { faulted with channel := sent [0x03#8] } = .next t) ∧
    ∃ t, Host.Core.run core 2 { State.reset with channel := sent [0x03#8, 0x00#8] } = .next t :=
  ⟨by decide, by decide, ⟨_, rfl⟩, ⟨_, rfl⟩⟩

/-- R75 and R91 on states with nothing left to consume: a faulted one has ended and is not final, another is final; a
packet in part is stuck. -/
theorem test_final_is_ended_and_not_faulted : faulted.ended = true ∧ faulted.final = false ∧ ready.final = true ∧
    ({ ready with channel := sent [0x01#8] } : State).stuck = true ∧
    ({ ready with channel := sent [0x01#8] } : State).final = false := by decide

/-- Both alternatives: a reset event, and a packet. -/
theorem test_witness_OnlyResetLeavesAFault : faulted.faultCause ≠ 0x00#8 ∧
    (∃ t, step { faulted with channel := [.reset] } = .next t) ∧
    ∃ t, step { faulted with channel := sent [0x03#8] } = .next t := ⟨by decide, ⟨_, rfl⟩, ⟨_, rfl⟩⟩

/-- Two states that differ in their data registers. -/
theorem test_witness_RegistersBeforeInitAreUnobservable : State.reset.phase = .uninit ∧
    ({ State.reset with totalLen := 7#64, seed := 1#64 } : State).phase = .uninit ∧
    State.reset ≠ { State.reset with totalLen := 7#64, seed := 1#64 } := by decide

/-- Every arm of the checks has a well-formed command; opcodes 0x00, 0x04 and 0xFF are the edges of the illegal ones. -/
theorem test_witness_ChecksApplyInOrder : (Instr.init 0#64).wellFormed = true ∧ (Instr.update []).wellFormed = true ∧
    Instr.digest.wellFormed = true ∧ (Instr.illegal 0x00#8).wellFormed = true ∧
    (Instr.illegal 0x04#8).wellFormed = true ∧ (Instr.illegal 0xFF#8).wellFormed = true := by decide

/-- With the digest bytes, and without. -/
theorem test_witness_OneResponsePerCommand :
    (Instr.digest.wellFormed = true ∧ ∃ t, exec .digest ready = .next t) ∧
    (Instr.update []).wellFormed = true ∧ ∃ t, exec (.update []) State.reset = .next t :=
  ⟨⟨rfl, _, rfl⟩, by decide, _, rfl⟩

theorem test_witness_UnreadResponsesDoNotMatter : ∃ t, step { ready with channel := sent [0x03#8] } = .next t :=
  ⟨_, rfl⟩

theorem test_witness_HostReadCommutesWithStep : ∃ b s1 t, ready.hostRead = some (b, s1) ∧ step ready = .next t :=
  ⟨_, _, _, rfl, rfl⟩

theorem test_witness_StepRunsTheDecodedCommand :
    decode (bytesArrived (sent [0x03#8, 0x01#8])) = .ok (.digest, [0x01#8]) ∧ Instr.digest.wellFormed = true ∧
    sent [0x03#8, 0x01#8] = sent (encode .digest) ++ [.byte 0x01#8] := ⟨rfl, rfl, rfl⟩

/-- The empty beginning, and all of a packet but its last byte. -/
theorem test_witness_IncompletePacketHolds : (Instr.update [7#8]).wellFormed = true ∧
    encode (.update [7#8]) = [] ++ encode (.update [7#8]) ∧ encode (.update [7#8]) ≠ [] ∧
    encode (.update [7#8]) = [2#8, 1#8, 0#8, 0#8, 0#8, 0#8, 0#8, 0#8, 0#8] ++ [7#8] := by decide

theorem test_witness_ResetDiscardsAPartialPacket : (Instr.init 1#64).wellFormed = true ∧
    encode (.init 1#64) = [1#8, 1#8] ++ [0#8, 0#8, 0#8, 0#8, 0#8, 0#8, 0#8] ∧
    ({ ready with channel := sent [1#8, 1#8] ++ [.reset] } : State).channel = sent [1#8, 1#8] ++ .reset :: [] := by decide

theorem test_witness_ResetAndPowerOnAgree :
    ({ ready with channel := [.reset, .byte 3#8] } : State).channel = .reset :: [.byte 3#8] := rfl

/-- Both alternatives: INIT at power-on, and a reset in READY. -/
theorem test_witness_PhaseChangesOnlyByInitAndReset :
    (∃ t, step { State.reset with channel := sent (encode (.init 5#64)) } = .next t ∧ State.reset.phase ≠ t.phase) ∧
    ∃ t, step { ready with channel := [.reset] } = .next t ∧ ready.phase ≠ t.phase :=
  ⟨⟨_, rfl, by decide⟩, ⟨_, rfl, by decide⟩⟩

theorem test_witness_CommandsLeaveOtherRegistersAlone : (∃ t, exec (.update (bytesTo 33)) tail31 = .next t) ∧
    (∃ t, exec .digest tail31 = .next t) ∧ ∃ t, exec (.illegal 0#8) tail31 = .next t :=
  ⟨⟨_, rfl⟩, ⟨_, rfl⟩, ⟨_, rfl⟩⟩

/-- A state of the invariant in READY, with a stream. -/
theorem test_witness_EveryStepKeepsTheInvariant : Inv tail31 ∧ ∃ t, step tail31 = .next t :=
  ⟨⟨by decide, by decide, fun _ => ⟨bytesTo 31, clean_tail31.length_le, clean_tail31.streamed⟩⟩, ⟨_, rfl⟩⟩

theorem test_witness_RunPerformsPacketsInOrder :
    (∀ c ∈ [Instr.init 0#64, .update [42#8], .digest], c.wellFormed = true) ∧
    sent ([Instr.digest].flatMap encode) ++ [.reset] = [.byte 3#8, .reset] := by decide

theorem test_witness_HashLineReturnsTheHash : ready.faultCause = 0x00#8 ∧ (bytesTo 33).length ≤ 2 ^ 64 - 1 ∧
    ∃ s : State, s.faultCause = 0x00#8 ∧ s.channel = sent (assemble (.hash 1#64 (bytesTo 33))) ++ [.reset] :=
  ⟨by decide, by decide, { ready with channel := sent (assemble (.hash 1#64 (bytesTo 33))) ++ [.reset] }, rfl, rfl⟩

theorem test_witness_UpdatenLeavesTheStateOfOneUpdate : 0 < 32 ∧ tail31.tailWf = true ∧ tail31.faultCause = 0x00#8 ∧
    tail31.phase = .ready ∧ tail31.totalLen.toNat + (bytesTo 100).length ≤ 2 ^ 64 - 1 := by decide

end Sys2Proof.Tests
end

section
/-! SUPPORT. The proofs about the state of the block (spec/10_state.md): which registers a command writes, when PHASE
and TOTAL_LEN change, the invariant of every step, and that the registers before the first INIT cannot be seen. -/

namespace Sys2Proof.Machine

open Sys2Proof.Config (maxLength)

/-! ### The invariant of every step (O53) -/

/-- The invariant reads only the registers of R8, not the channels. -/
theorem Inv.of_sameRegisters {s t : State} (h : Inv s) (hst : sameRegisters s t) : Inv t := by
  obtain ⟨hseed, hacc, hlen, htail, hused, hphase, hcause⟩ := hst
  refine ⟨?_, ?_, fun hready => ?_⟩
  · rw [State.tailWf, ← htail, ← hused]
    exact h.tail
  · rw [State.statusLegal, ← hcause]
    exact h.status
  · obtain ⟨stream, hle, hstr⟩ := h.stream (hphase.trans hready)
    exact ⟨stream, hle, by rw [← hseed]; exact hstr.of_same hseed.symm hacc.symm hlen.symm htail.symm hused.symm⟩

theorem Inv.setChannel {s : State} (h : Inv s) (channel : List HostEvent) : Inv { s with channel := channel } :=
  h.of_sameRegisters ⟨rfl, rfl, rfl, rfl, rfl, rfl, rfl⟩

/-- The status after a fault is one of the codes of R69. -/
theorem raiseFault_statusLegal (c : FaultCause) (s : State) : (raiseFault c s).statusLegal = true := by
  rw [State.statusLegal, raiseFault_faultCause]
  cases c <;> rfl

theorem Inv.raiseFault {s : State} (h : Inv s) (c : FaultCause) : Inv (raiseFault c s) where
  tail := h.tail
  status := raiseFault_statusLegal c s
  stream hready := by
    obtain ⟨stream, hle, hstr⟩ := h.stream hready
    exact ⟨stream, hle, hstr.of_same rfl rfl rfl rfl rfl⟩

/-- After INIT the stream is the empty one (R51). -/
theorem Inv.performInit {s : State} (h : Inv s) (seed : Word) : Inv (performInit seed s) where
  tail := (performInit_streamed seed s).tailWf
  status := h.status
  stream _ := ⟨[], Nat.zero_le _, performInit_streamed seed s⟩

/-- The length check of R72 on TOTAL_LEN bounds the stream with the new data. -/
theorem Streamed.append_length_le {seed : Word} {stream data : List Byte} {s : State} (h : Streamed seed stream s)
    (hle : stream.length ≤ maxLength) (hfits : s.totalLen.toNat + data.length ≤ maxLength) :
    (stream ++ data).length ≤ maxLength := by
  have hlen : s.totalLen.toNat = stream.length := by
    rw [h.totalLen_eq, BitVec.toNat_ofNat, Nat.mod_eq_of_lt (Nat.lt_of_le_of_lt hle (by decide))]
  rw [List.length_append, ← hlen]
  exact hfits

/-- An UPDATE that passes its checks appends its data to the stream (R57). -/
theorem Inv.performUpdate {s : State} (h : Inv s) {data : List Byte} (hready : s.phase = .ready)
    (hfits : s.totalLen.toNat + data.length ≤ maxLength) : Inv (performUpdate data s) where
  tail := performUpdate_tailWf data s h.tail
  status := by
    rw [State.statusLegal, performUpdate_faultCause]
    exact h.status
  stream _ := by
    obtain ⟨stream, hle, hstr⟩ := h.stream hready
    rw [performUpdate_seed]
    exact ⟨stream ++ data, hstr.append_length_le hle hfits, performUpdate_streamed hstr data⟩

/-- Reset leaves UNINIT, where nothing is claimed of the stream (R83). -/
theorem inv_resetBlock (s : State) : Inv (resetBlock s) where
  tail := rfl
  status := rfl
  stream hready := by cases hready

theorem exec_inv {i : Instr} {s t : State} (h : Inv s) (he : exec i s = .next t) : Inv t := by
  obtain ⟨-, rfl⟩ | ⟨-, c, rfl⟩ | ⟨-, seed, -, rfl⟩ | ⟨-, hready, data, -, hfits, rfl⟩ | ⟨-, -, -, rfl⟩ :=
    exec_cases i s t he
  · exact h.of_sameRegisters ⟨rfl, rfl, rfl, rfl, rfl, rfl, rfl⟩
  · exact h.raiseFault c
  · exact h.performInit seed
  · exact h.performUpdate hready hfits
  · exact h.of_sameRegisters ⟨rfl, rfl, rfl, rfl, rfl, rfl, rfl⟩

/-- Settles O53: every command keeps the invariant (`exec_inv`), a reset establishes it, and holding changes nothing. -/
theorem everyStepKeepsTheInvariant : Obligations.EveryStepKeepsTheInvariant := by
  intro s t h hs
  obtain ⟨i, rest, -, he⟩ | ⟨e, rest, -, -, he⟩ | ⟨e, -, -, he⟩ := step_cases s <;> rw [he] at hs
  · exact exec_inv (h.setChannel _) hs
  · cases hs
    exact inv_resetBlock _
  · cases hs
    exact h

/-! ### TOTAL_LEN (O27) -/

theorem exec_init_of_ok (seed : Word) {s : State} (hok : s.faultCause = codeNone) :
    exec (.init seed) s = .next (performInit seed s) := by
  rw [exec, execInit, unlessFaulted_of_ok _ hok]

theorem performUpdate_totalLen (data : List Byte) {s : State} (h : s.tailWf = true) :
    (performUpdate data s).totalLen = s.totalLen + BitVec.ofNat 64 data.length := by
  rw [performUpdate_eq data s h, respondOk_totalLen, afterFold]

/-- Where the length check passes, the counter does not wrap (R11, R72). -/
theorem performUpdate_totalLen_toNat {data : List Byte} {s : State} (h : s.tailWf = true)
    (hfits : s.totalLen.toNat + data.length ≤ maxLength) :
    (performUpdate data s).totalLen.toNat = s.totalLen.toNat + data.length := by
  have hlt : s.totalLen.toNat + data.length < 2 ^ 64 := Nat.lt_of_le_of_lt hfits (by decide)
  rw [performUpdate_totalLen data h, BitVec.toNat_add, BitVec.toNat_ofNat, Nat.add_mod_mod, Nat.mod_eq_of_lt hlt]

/-- A raised fault is never the code NONE (R69). -/
theorem faultCode_ne_codeNone (c : FaultCause) : faultCode c ≠ codeNone := by cases c <;> decide

/-- Settles O27: an UPDATE that is refused or faults writes no data register, and one that is performed passed the
length check. -/
theorem totalLengthCountsEveryByte : Obligations.TotalLengthCountsEveryByte := by
  refine ⟨fun data s t hwf he => ?_, fun seed s hok => ⟨_, exec_init_of_ok seed hok, rfl⟩⟩
  obtain ⟨hf, hx⟩ | ⟨-, -, hx⟩ | ⟨-, -, -, hx⟩ | ⟨hok, -, hfits, hx⟩ := execUpdate_cases data s <;>
    rw [exec, hx] at he <;> cases he
  · exact ⟨fun h0 => absurd h0 hf, fun _ => rfl⟩
  · exact ⟨fun h0 => absurd h0 (faultCode_ne_codeNone .uninit), fun _ => rfl⟩
  · exact ⟨fun h0 => absurd h0 (faultCode_ne_codeNone .lengthOverflow), fun _ => rfl⟩
  · exact ⟨fun _ => performUpdate_totalLen_toNat hwf hfits,
      fun hne => absurd ((performUpdate_faultCause data s).trans hok) hne⟩

/-! ### Registers before the first INIT (O43) -/

/-- Two blocks in UNINIT that agree on what R16 gives a value there: FAULT_CAUSE and the channels. -/
structure AgreeInUninit (s t : State) : Prop where
  left : s.phase = .uninit
  right : t.phase = .uninit
  faultCause : s.faultCause = t.faultCause
  channel : s.channel = t.channel
  responses : s.responses = t.responses

/-- Blocks that no run tells apart: equal, or in UNINIT and different in data registers alone. -/
def Indistinguishable (s t : State) : Prop := s = t ∨ AgreeInUninit s t

theorem Indistinguishable.observations {s t : State} (h : Indistinguishable s t) :
    s.responses = t.responses ∧ s.faultCause = t.faultCause ∧ s.channel = t.channel ∧ s.phase = t.phase ∧
      (s.phase = .ready → s = t) := by
  obtain rfl | h := h
  · exact ⟨rfl, rfl, rfl, rfl, fun _ => rfl⟩
  · refine ⟨h.responses, h.faultCause, h.channel, h.left.trans h.right.symm, fun hready => ?_⟩
    rw [h.left] at hready
    cases hready

theorem AgreeInUninit.setChannel {s t : State} (h : AgreeInUninit s t) (channel : List HostEvent) :
    AgreeInUninit { s with channel := channel } { t with channel := channel } :=
  ⟨h.left, h.right, h.faultCause, rfl, h.responses⟩

theorem AgreeInUninit.refusePacket {s t : State} (h : AgreeInUninit s t) :
    AgreeInUninit (refusePacket s) (refusePacket t) where
  left := h.left
  right := h.right
  faultCause := h.faultCause
  channel := h.channel
  responses := by rw [refusePacket_responses, refusePacket_responses, h.responses, h.faultCause]

theorem AgreeInUninit.raiseFault {s t : State} (h : AgreeInUninit s t) (c : FaultCause) :
    AgreeInUninit (raiseFault c s) (raiseFault c t) where
  left := h.left
  right := h.right
  faultCause := rfl
  channel := h.channel
  responses := by rw [raiseFault_responses, raiseFault_responses, h.responses]

/-- INIT writes every data register (R51), so nothing of the difference is left. -/
theorem AgreeInUninit.performInit_eq {s t : State} (h : AgreeInUninit s t) (seed : Word) :
    performInit seed s = performInit seed t := by
  simp only [performInit, respondOk, respond, setTailUsed, h.faultCause, h.channel, h.responses, List.take_zero]

/-- Reset reads the channels alone (R83). -/
theorem AgreeInUninit.resetBlock_eq {s t : State} (h : AgreeInUninit s t) : resetBlock s = resetBlock t := by
  rw [resetBlock, resetBlock, h.channel, h.responses]

/-- In UNINIT, with no fault, a command is an INIT or raises a fault that it alone determines (R70, R71). -/
theorem exec_of_uninit (i : Instr) :
    (∃ seed, i = .init seed) ∨
    ∃ c, ∀ s : State, s.faultCause = codeNone → s.phase = .uninit → exec i s = .next (raiseFault c s) := by
  cases i with
  | init seed => exact .inl ⟨seed, rfl⟩
  | update data =>
    exact .inr ⟨.uninit, fun s hok hu => by
      rw [exec, execUpdate, unlessFaulted_of_ok _ hok, whenReady_of_uninit _ hu]⟩
  | digest =>
    exact .inr ⟨.uninit, fun s hok hu => by
      rw [exec, execDigest, unlessFaulted_of_ok _ hok, whenReady_of_uninit _ hu]⟩
  | illegal op =>
    exact .inr ⟨.illegalOpcode, fun s hok _ => by rw [exec, execIllegal, unlessFaulted_of_ok _ hok]⟩

theorem AgreeInUninit.exec {s t : State} (h : AgreeInUninit s t) (i : Instr) :
    ∃ s' t', exec i s = .next s' ∧ exec i t = .next t' ∧ Indistinguishable s' t' := by
  by_cases hok : s.faultCause = codeNone
  · have hok' : t.faultCause = codeNone := h.faultCause.symm.trans hok
    obtain ⟨seed, rfl⟩ | ⟨c, hc⟩ := exec_of_uninit i
    · exact ⟨_, _, exec_init_of_ok seed hok, exec_init_of_ok seed hok', .inl (h.performInit_eq seed)⟩
    · exact ⟨_, _, hc s hok h.left, hc t hok' h.right, .inr (h.raiseFault c)⟩
  · have hok' : t.faultCause ≠ codeNone := h.faultCause ▸ hok
    exact ⟨_, _, exec_of_faulted i hok, exec_of_faulted i hok', .inr h.refusePacket⟩

theorem AgreeInUninit.step {s t : State} (h : AgreeInUninit s t) :
    ∃ s' t', step s = .next s' ∧ step t = .next t' ∧ Indistinguishable s' t' := by
  rw [Machine.step, Machine.step, ← h.channel]
  cases arrival s.channel with
  | packet i rest => exact (h.setChannel rest).exec i
  | reset rest => exact ⟨_, _, rfl, rfl, .inl (h.setChannel rest).resetBlock_eq⟩
  | hold => exact ⟨s, t, rfl, rfl, .inr h⟩

theorem step_next (s : State) : ∃ t, step s = .next t := by
  obtain ⟨i, rest, -, he⟩ | ⟨e, rest, -, -, he⟩ | ⟨e, -, -, he⟩ := step_cases s
  · rw [he]
    exact exec_next i _
  · exact ⟨_, he⟩
  · exact ⟨_, he⟩

theorem Indistinguishable.step {s t : State} (h : Indistinguishable s t) :
    ∃ s' t', step s = .next s' ∧ step t = .next t' ∧ Indistinguishable s' t' := by
  obtain rfl | h := h
  · obtain ⟨u, hu⟩ := step_next s
    exact ⟨u, u, hu, hu, .inl rfl⟩
  · exact h.step

theorem Indistinguishable.run {s t : State} (h : Indistinguishable s t) (n : Nat) :
    ∃ s' t', Host.Core.run core n s = .next s' ∧ Host.Core.run core n t = .next t' ∧ Indistinguishable s' t' := by
  induction n generalizing s t with
  | zero => exact ⟨s, t, rfl, rfl, h⟩
  | succ n ih =>
    obtain ⟨s', t', hs, ht, h'⟩ := h.step
    rw [run_succ n hs, run_succ n ht]
    exact ih h'

/-- Settles O43: the two runs stay indistinguishable step by step. -/
theorem registersBeforeInitAreUnobservable : Obligations.RegistersBeforeInitAreUnobservable := by
  intro n s t hs ht hcause hchannel hresponses
  have h : Indistinguishable s t := .inr ⟨hs, ht, hcause, hchannel, hresponses⟩
  obtain ⟨s', t', hrs, hrt, h'⟩ := h.run n
  exact ⟨s', t', hrs, hrt, h'.observations⟩

/-! ### PHASE (O51) -/

/-- A command leaves PHASE alone unless it is an INIT that is performed (R14). -/
theorem exec_phase {i : Instr} {s t : State} (h : exec i s = .next t) :
    t.phase = s.phase ∨ (s.faultCause = codeNone ∧ ∃ seed, i = .init seed ∧ t = performInit seed s) := by
  obtain ⟨-, rfl⟩ | ⟨-, c, rfl⟩ | hinit | ⟨-, -, data, -, -, rfl⟩ | ⟨-, -, -, rfl⟩ := exec_cases i s t h
  · exact .inl rfl
  · exact .inl rfl
  · exact .inr hinit
  · exact .inl (performUpdate_phase data s)
  · exact .inl rfl

/-- Settles O51: of what a step can do, only a performed INIT and a reset write PHASE. -/
theorem phaseChangesOnlyByInitAndReset : Obligations.PhaseChangesOnlyByInitAndReset := by
  intro s t hs hne
  obtain ⟨i, rest, hd, he⟩ | ⟨e, rest, hd, hr, he⟩ | ⟨e, -, -, he⟩ := step_cases s <;> rw [he] at hs
  · obtain hsame | ⟨hok, seed, rfl, rfl⟩ := exec_phase hs
    · exact absurd hsame.symm hne
    · exact .inl ⟨rfl, hok, seed, rest, hd, rfl⟩
  · cases hs
    exact .inr ⟨rfl, rest, by rw [arrival_of_incomplete hd, hr]⟩
  · cases hs
    exact absurd rfl hne

/-! ### What each command leaves unchanged (O52) -/

/-- Settles O52: the "written by" column of R8, read off what each command can do. -/
theorem commandsLeaveOtherRegistersAlone : Obligations.CommandsLeaveOtherRegistersAlone := by
  intro i s t he
  refine ⟨exec_channel he, ?_⟩
  obtain ⟨-, rfl⟩ | ⟨hok, c, rfl⟩ | ⟨-, seed, rfl, rfl⟩ | ⟨-, -, data, rfl, -, rfl⟩ | ⟨-, -, -, rfl⟩ :=
    exec_cases i s t he
  · exact ⟨.inr ⟨rfl, rfl⟩, .inr (.inr ⟨rfl, rfl, rfl, rfl⟩), .inl rfl⟩
  · exact ⟨.inr ⟨rfl, rfl⟩, .inr (.inr ⟨rfl, rfl, rfl, rfl⟩), .inr ⟨hok, rfl, rfl, rfl, rfl, rfl, rfl⟩⟩
  · exact ⟨.inl ⟨seed, rfl⟩, .inl ⟨seed, rfl⟩, .inl rfl⟩
  · exact ⟨.inr ⟨performUpdate_seed data s, performUpdate_phase data s⟩, .inr (.inl ⟨data, rfl⟩),
      .inl (performUpdate_faultCause data s)⟩
  · exact ⟨.inr ⟨rfl, rfl⟩, .inr (.inr ⟨rfl, rfl, rfl, rfl⟩), .inl rfl⟩

end Sys2Proof.Machine
end

section
/-! SUPPORT. The proofs about byte order and the order of packets (spec/20_memory.md): what a word's bytes weigh, and what
a run over the packets of a command sequence does. -/

namespace Sys2Proof.Machine

/-! ### Byte order (O8) -/

/-- Settles O8: LE64 and LE32 put their bytes after one another, and each byte put below a value multiplies it by 256. -/
theorem wordsAreLittleEndian : Obligations.WordsAreLittleEndian := by
  constructor
  · intro b0 b1 b2 b3 b4 b5 b6 b7
    rw [le64_bytes]
    simp only [append_byte_toNat]
    omega
  · intro b0 b1 b2 b3
    rw [le32_bytes]
    simp only [append_byte_toNat]
    omega

/-! ### Packets in order (O57) -/

/-- The decoder reads back every packet, whatever follows it (R31, R38). -/
theorem decode_encode_append {i : Instr} (hwf : i.wellFormed = true) (rest : List Byte) :
    decode (encode i ++ rest) = .ok (i, rest) := by
  cases i with
  | init seed => exact Laws.RoundTrip.init seed hwf rest
  | update data => exact Laws.RoundTrip.update data hwf rest
  | digest => exact Laws.RoundTrip.digest hwf rest
  | illegal op => exact Laws.RoundTrip.illegal op hwf rest

/-- With a packet at the head of the channel, a step consumes it and performs its command (R28, R31). -/
theorem step_of_packet {i : Instr} {s : State} {es : List HostEvent} (hwf : i.wellFormed = true)
    (hch : s.channel = sent (encode i) ++ es) : step s = exec i { s with channel := es } := by
  rw [step, hch, arrival_of_packet (decode_encode_append hwf)]

/-- A command does the same whatever the command channel holds behind its packet (R25). -/
theorem exec_setChannel {i : Instr} {s t : State} (channel : List HostEvent) (h : exec i s = .next t) :
    exec i { s with channel := channel } = .next { t with channel := channel } :=
  exec_rehost channel [] h

/-- Settles O57, by induction on the commands: a step performs the first packet's command, which leaves the channel
at the next packet. -/
theorem runPerformsPacketsInOrder : Obligations.RunPerformsPacketsInOrder := by
  intro cmds
  induction cmds with
  | nil =>
    intro s following _ hch
    obtain rfl : s.channel = following := hch
    rfl
  | cons i cmds ih =>
    intro s following hwf hch
    rw [List.forall_mem_cons] at hwf
    obtain ⟨hi, hcmds⟩ := hwf
    rw [List.flatMap_cons, sent_append, List.append_assoc] at hch
    obtain ⟨t, ht⟩ := exec_next i { s with channel := sent (cmds.flatMap encode) ++ following }
    have hexec : exec i { s with channel := following } = .next { t with channel := following } :=
      (exec_setChannel following ht :)
    rw [List.length_cons, run_succ _ ((step_of_packet hi hch).trans ht), execAll_cons cmds hexec]
    exact ih t following hcmds (exec_channel ht)

end Sys2Proof.Machine
end

section
/-! SUPPORT. The proofs about packets (spec/30_encoding.md): the decoder and the encoder agree in both directions, what
one response packet holds, when the block waits for bytes, and what the pseudo-instructions do. -/

namespace Sys2Proof.Machine

open Sys2Proof.Config (blockSize maxLength)

/-! ### The decoder and the encoder (O1 to O3) -/

/-- Settles O1: the round trip of each of the four commands (`Laws.RoundTrip`). -/
theorem decodeOfEncodeIsTheCommand : Obligations.DecodeOfEncodeIsTheCommand :=
  fun _ rest hwf => decode_encode_append hwf rest

/-- An UPDATE is well formed when some length field counts its data (R33). -/
theorem update_wellFormed_of_length {data : List Byte} {len : Word} (h : data.length = len.toNat) :
    (Instr.update data).wellFormed = true :=
  decide_eq_true (by rw [h]; exact Nat.le_pred_of_lt len.isLt)

/-- The packet of an UPDATE in terms of the length field that counts its data (R33). -/
theorem encode_update_of_length {data : List Byte} {len : Word} (h : data.length = len.toNat) :
    encode (.update data) = opUpdate :: (le64Bytes len ++ data) := by
  rw [encode, h, BitVec.ofNat_toNat, BitVec.setWidth_eq]

theorem encode_decodeNone (op : Byte) : encode (decodeNone op) = [op] := by
  rw [decodeNone]
  split
  · next h => rw [h, encode]
  · rfl

theorem decodeNone_wellFormed {op : Byte} (hinit : op ≠ opInit) (hupdate : op ≠ opUpdate) :
    (decodeNone op).wellFormed = true := by
  rw [decodeNone]
  split
  · rfl
  · next hdigest =>
    rw [opInit] at hinit
    rw [opUpdate] at hupdate
    rw [opDigest] at hdigest
    simp [Instr.wellFormed, isLegalOpcode, hinit, hupdate, hdigest]

@[simp] theorem formatOf_opInit : formatOf opInit = .fSeed := rfl

@[simp] theorem formatOf_opUpdate : formatOf opUpdate = .fData := rfl

/-- An INIT whose seed has not fully arrived (R40). -/
theorem decode_init_of_short {body : List Byte} (h : body.length < 8) :
    decode (opInit :: body) = .error .awaitSeed := by
  simp only [decode, formatOf_opInit, takeField_eq_none.mpr h]

/-- An UPDATE whose length field has not fully arrived (R40). -/
theorem decode_update_of_short {body : List Byte} (h : body.length < 8) :
    decode (opUpdate :: body) = .error .awaitLength := by
  simp only [decode, formatOf_opUpdate, takeField_eq_none.mpr h]

/-- An UPDATE whose data has not fully arrived (R40). -/
theorem decode_update_of_short_data {len : Word} {rest : List Byte} (h : rest.length < len.toNat) :
    decode (opUpdate :: (le64Bytes len ++ rest)) = .error .awaitData := by
  simp only [decode, formatOf_opUpdate, takeField_append, if_neg (Nat.not_le_of_lt h)]

/-- Too few bytes can be completed to any greater number of them. -/
theorem exists_missing_bytes {part : List Byte} {n : Nat} (h : part.length < n) :
    ∃ missing : List Byte, missing ≠ [] ∧ (part ++ missing).length = n := by
  refine ⟨List.replicate (n - part.length) 0#8, ?_, ?_⟩
  · rw [Ne, List.replicate_eq_nil_iff]
    omega
  · rw [List.length_append, List.length_replicate]
    omega

/-- Too few bytes for a field are the beginning of some field's bytes. -/
theorem le64Bytes_of_short {body : List Byte} (h : body.length < 8) :
    ∃ (v : Word) (missing : List Byte), missing ≠ [] ∧ le64Bytes v = body ++ missing := by
  obtain ⟨missing, hne, hlen⟩ := exists_missing_bytes h
  exact ⟨le64 (body ++ missing), missing, hne, le64Bytes_le64 hlen⟩

/-- How a byte sequence stands to the packets of the command channel (R40). -/
inductive Framing (bs : List Byte) : Prop where
  /-- A packet stands at its head. -/
  | packet (i : Instr) (rest : List Byte) (hwf : i.wellFormed = true) (hbs : bs = encode i ++ rest)
  /-- It is a proper beginning of a packet, and the decoder waits. -/
  | beginning (i : Instr) (missing : List Byte) (e : Incomplete) (hwf : i.wellFormed = true) (hne : missing ≠ [])
      (henc : encode i = bs ++ missing) (hdec : decode bs = .error e)

theorem framing_init (body : List Byte) : Framing (opInit :: body) := by
  cases hfield : takeField body with
  | some p =>
    obtain ⟨seed, rest⟩ := p
    exact .packet (.init seed) rest rfl (congrArg (opInit :: ·) (takeField_eq_some hfield))
  | none =>
    have hshort := takeField_eq_none.mp hfield
    obtain ⟨seed, missing, hne, hv⟩ := le64Bytes_of_short hshort
    exact .beginning (.init seed) missing .awaitSeed rfl hne (congrArg (opInit :: ·) hv) (decode_init_of_short hshort)

theorem framing_update (body : List Byte) : Framing (opUpdate :: body) := by
  cases hfield : takeField body with
  | some p =>
    obtain ⟨len, rest⟩ := p
    obtain rfl := takeField_eq_some hfield
    by_cases hlen : len.toNat ≤ rest.length
    · have hcount : (rest.take len.toNat).length = len.toNat := List.length_take_of_le hlen
      refine .packet (.update (rest.take len.toNat)) (rest.drop len.toNat) (update_wellFormed_of_length hcount) ?_
      rw [encode_update_of_length hcount, List.cons_append, List.append_assoc, List.take_append_drop]
    · have hshort := Nat.lt_of_not_le hlen
      obtain ⟨missing, hne, hcount⟩ := exists_missing_bytes hshort
      refine .beginning (.update (rest ++ missing)) missing .awaitData (update_wellFormed_of_length hcount) hne ?_
        (decode_update_of_short_data hshort)
      rw [encode_update_of_length hcount, List.cons_append, List.append_assoc]
  | none =>
    have hshort := takeField_eq_none.mp hfield
    obtain ⟨len, missing, hne, hv⟩ := le64Bytes_of_short hshort
    have hcount : (List.replicate len.toNat (0#8 : Byte)).length = len.toNat := List.length_replicate
    refine .beginning (.update (List.replicate len.toNat 0#8)) (missing ++ List.replicate len.toNat 0#8) .awaitLength
      (update_wellFormed_of_length hcount) (List.append_ne_nil_of_left_ne_nil hne _) ?_ (decode_update_of_short hshort)
    rw [encode_update_of_length hcount, hv, List.cons_append, List.append_assoc]

/-- Every byte sequence begins with a packet or is a proper beginning of one, on which the decoder waits. -/
theorem framing (bs : List Byte) : Framing bs := by
  cases bs with
  | nil => exact .beginning .digest [opDigest] .awaitOpcode rfl (List.cons_ne_nil _ _) rfl rfl
  | cons op body =>
    by_cases hinit : op = opInit
    · exact hinit ▸ framing_init body
    · by_cases hupdate : op = opUpdate
      · exact hupdate ▸ framing_update body
      · exact .packet (decodeNone op) body (decodeNone_wellFormed hinit hupdate) (by rw [encode_decodeNone]; rfl)

/-- Settles O2: where a packet stands at the head, the decoder gives its command and no other. -/
theorem decodedBytesAreThePacket : Obligations.DecodedBytesAreThePacket := by
  intro bs rest i hdec
  cases framing bs with
  | packet j tail hwf hbs =>
    rw [hbs, decode_encode_append hwf] at hdec
    cases hdec
    exact ⟨hwf, hbs⟩
  | beginning j missing e hwf hne henc herr =>
    rw [herr] at hdec
    cases hdec

/-- A proper beginning of a packet has no packet at its head: the decoder would read that one from the whole packet too,
and stop before its end (R31, R38). -/
theorem decode_of_beginning {i : Instr} {part missing : List Byte} (hwf : i.wellFormed = true) (hne : missing ≠ [])
    (henc : encode i = part ++ missing) : ∃ e, decode part = .error e := by
  cases framing part with
  | packet j rest hj hpart =>
    have hi := decode_encode_append hwf []
    rw [List.append_nil, henc, hpart, List.append_assoc, decode_encode_append hj] at hi
    injection hi with hi
    have hnil : rest ++ missing = [] := congrArg Prod.snd hi
    exact absurd (List.append_eq_nil_iff.mp hnil).2 hne
  | beginning j missing' e hj hne' henc' herr => exact ⟨e, herr⟩

/-- Settles O3: `framing` gives the packet that was begun, and no proper beginning decodes. -/
theorem decoderWaitsExactlyOnPacketBeginnings : Obligations.DecoderWaitsExactlyOnPacketBeginnings := by
  intro bs
  constructor
  · rintro ⟨e, hdec⟩
    cases framing bs with
    | packet i rest hwf hbs =>
      rw [hbs, decode_encode_append hwf] at hdec
      cases hdec
    | beginning i missing e' hwf hne henc herr => exact ⟨i, missing, hwf, hne, henc⟩
  · rintro ⟨i, missing, hwf, hne, henc⟩
    exact decode_of_beginning hwf hne henc

/-! ### Packets of given bytes (O4 to O7, O9) -/

/-- Settles O4: the eight bytes are those of their LE64 value, so the sequence begins with that seed's packet. -/
theorem initSeedFieldIsLittleEndian : Obligations.InitSeedFieldIsLittleEndian := by
  refine ⟨fun b1 b2 b3 b4 b5 b6 b7 b8 rest => ?_, fun _ => rfl⟩
  have henc : encode (.init (le64 [b1, b2, b3, b4, b5, b6, b7, b8])) = [0x01#8, b1, b2, b3, b4, b5, b6, b7, b8] :=
    congrArg (opInit :: ·) (le64Bytes_le64 rfl)
  rw [← henc, ← le64_bytes]
  exact decode_encode_append rfl rest

/-- Settles O5: the eight bytes are those of their LE64 value, which counts the data. -/
theorem updateLengthFieldCountsTheData : Obligations.UpdateLengthFieldCountsTheData := by
  intro b1 b2 b3 b4 b5 b6 b7 b8 data rest hlen
  rw [← le64_bytes] at hlen
  have henc : encode (.update data) = [0x02#8, b1, b2, b3, b4, b5, b6, b7, b8] ++ data := by
    rw [encode_update_of_length hlen, le64Bytes_le64 rfl]
    rfl
  rw [← henc]
  exact decode_encode_append (update_wellFormed_of_length hlen) rest

/-- An opcode byte of R36's ranges is in no row of the map. -/
theorem illegal_wellFormed {op : Byte} (h : op = 0x00#8 ∨ 0x04 ≤ op.toNat) : (Instr.illegal op).wellFormed = true := by
  have hne : op ≠ 0x01#8 ∧ op ≠ 0x02#8 ∧ op ≠ 0x03#8 := by
    obtain rfl | h := h
    · decide
    · refine ⟨?_, ?_, ?_⟩ <;> rintro rfl <;> exact absurd h (by decide)
  simp [Instr.wellFormed, isLegalOpcode, hne]

/-- Settles O6: each of these bytes is the whole packet of its command. -/
theorem oneByteOpcodesDecode : Obligations.OneByteOpcodesDecode :=
  ⟨fun _ rest h => decode_encode_append (illegal_wellFormed h) rest,
    fun rest => decode_encode_append (i := .digest) rfl rest⟩

/-- Settles O7, by evaluating the decoder. -/
theorem writtenPacketsDecode : Obligations.WrittenPacketsDecode :=
  ⟨rfl, rfl, rfl, rfl, rfl, by decide⟩

/-- Settles O9, by evaluating the assembler. -/
theorem assemblyTextEmitsTheWrittenBytes : Obligations.AssemblyTextEmitsTheWrittenBytes := by
  unfold Obligations.AssemblyTextEmitsTheWrittenBytes
  decide

/-! ### Responses and steps (O44, O47, O48) -/

/-- Settles O44: the response of each thing a command can do; a DIGEST that is refused or faults has STATUS ≠ 0x00. -/
theorem oneResponsePerCommand : Obligations.OneResponsePerCommand := by
  intro i s t _ he
  obtain ⟨hf, rfl⟩ | ⟨-, c, rfl⟩ | ⟨hok, seed, rfl, rfl⟩ | ⟨hok, -, data, rfl, -, rfl⟩ | ⟨hok, -, rfl, rfl⟩ :=
    exec_cases i s t he
  · rw [if_neg (fun h => hf h.2)]
    rfl
  · rw [if_neg (fun h => faultCode_ne_codeNone c h.2)]
    rfl
  · rw [if_neg (fun h => by cases h.1), performInit_responses, performInit_faultCause, hok]
  · rw [if_neg (fun h => by cases h.1), performUpdate_responses, performUpdate_faultCause, hok]
  · rw [if_pos ⟨rfl, hok⟩, performDigest_responses, performDigest_faultCause, hok]

/-- Settles O47, in both forms: from what the decoder answers, and from the packet at the head. -/
theorem stepRunsTheDecodedCommand : Obligations.StepRunsTheDecodedCommand :=
  ⟨fun s i rest hdec => by rw [step, arrival_of_ok hdec], fun _ _ _ hwf hch => step_of_packet hwf hch⟩

/-- With bytes on which the decoder waits and no reset event behind them, the block holds (R40). -/
theorem step_of_incomplete {s : State} {part : List Byte} {e : Incomplete} (hch : s.channel = sent part)
    (hdec : decode part = .error e) : step s = .next s := by
  have hbytes : bytesArrived s.channel = part := by
    rw [hch, ← List.append_nil (sent part), bytesArrived_sent, bytesArrived, List.append_nil]
  have hreset : fromReset s.channel = [] := fromReset_eq_nil (hch ▸ reset_notMem_sent part)
  rw [step, arrival_of_incomplete (hbytes ▸ hdec), hreset]

/-- Settles O48: the beginning does not decode, and the missing bytes make the channel one packet. -/
theorem incompletePacketHolds : Obligations.IncompletePacketHolds := by
  intro s i part missing hwf hne henc hch
  constructor
  · obtain ⟨e, hdec⟩ := decode_of_beginning hwf hne henc
    exact step_of_incomplete hch hdec
  · have hwhole : (s.hostSend missing).channel = sent (encode i) ++ [] := by
      rw [State.hostSend, hch, henc, sent_append, List.append_nil]
    exact step_of_packet hwf hwhole

/-! ### The pseudo-instruction HASH (O58) -/

theorem exec_update_of_fits {data : List Byte} {s : State} (hok : s.faultCause = codeNone) (hready : s.phase = .ready)
    (hfits : s.totalLen.toNat + data.length ≤ maxLength) : exec (.update data) s = .next (performUpdate data s) := by
  rw [exec, execUpdate, unlessFaulted_of_ok _ hok, whenReady_of_ready _ hready, whenLengthFits_of_fits _ hfits]

theorem exec_digest_of_ready {s : State} (hok : s.faultCause = codeNone) (hready : s.phase = .ready) :
    exec .digest s = .next (performDigest s) := by
  rw [exec, execDigest, unlessFaulted_of_ok _ hok, whenReady_of_ready _ hready]

/-- INIT, one UPDATE and DIGEST, where every check passes (R51, R53, R63). -/
theorem execAll_hash (seed : Word) {data : List Byte} {s : State} (hok : s.faultCause = codeNone)
    (hlen : data.length ≤ maxLength) : execAll [.init seed, .update data, .digest] s =
      .next (performDigest (performUpdate data (performInit seed s))) := by
  have hupdate : exec (.update data) (performInit seed s) = .next (performUpdate data (performInit seed s)) :=
    exec_update_of_fits hok rfl ((Nat.zero_add data.length).symm ▸ hlen)
  have hdigest : exec .digest (performUpdate data (performInit seed s)) =
      .next (performDigest (performUpdate data (performInit seed s))) :=
    exec_digest_of_ready (by rw [performUpdate_faultCause]; exact hok) (performUpdate_phase data _)
  rw [execAll_cons _ (exec_init_of_ok seed hok), execAll_cons _ hupdate, execAll_cons _ hdigest, execAll_nil]

/-- Settles O58: the line's bytes are three packets, and after the UPDATE the data registers are those of its stream. -/
theorem hashLineReturnsTheHash : Obligations.HashLineReturnsTheHash := by
  intro seed data s following hok hlen hch
  have hwf : ∀ c ∈ [Instr.init seed, .update data, .digest], c.wellFormed = true := by
    simp only [List.forall_mem_cons]
    exact ⟨rfl, decide_eq_true hlen, rfl, List.forall_mem_nil _⟩
  have hrun := runPerformsPacketsInOrder _ s following hwf hch
  rw [execAll_hash (s := { s with channel := following }) seed hok hlen] at hrun
  refine ⟨_, hrun, ?_, ?_⟩
  · rw [performDigest_channel, performUpdate_channel, performInit_channel]
  · have hstream := performUpdate_streamed (performInit_streamed seed { s with channel := following }) data
    rw [performDigest_responses, performUpdate_responses, performInit_responses, digestOf_streamed hstream,
      List.nil_append]
    simp only [codeNone, List.append_assoc, List.cons_append, List.nil_append]

/-! ### The pseudo-instruction UPDATEN (O59) -/

theorem flatten_slices (n k : Nat) (data : List Byte) :
    ((List.range k).map (fun j => slice data (n * j) n)).flatten = data.take (n * k) := by
  induction k with
  | zero => simp
  | succ k ih =>
    rw [List.range_succ, List.map_append, List.flatten_append, ih, Nat.mul_succ, List.take_add]
    simp [slice]

/-- The pieces are the data, in order (R42). -/
theorem pieces_flatten {n : Nat} (hn : 0 < n) (data : List Byte) : (pieces n data).flatten = data := by
  rw [pieces, flatten_slices, List.take_of_length_le]
  have hdiv := Nat.div_add_mod (data.length + (n - 1)) n
  have hmod := Nat.mod_lt (data.length + (n - 1)) hn
  omega

theorem length_le_of_mem_pieces {n : Nat} {data d : List Byte} (h : d ∈ pieces n data) : d.length ≤ n := by
  obtain ⟨k, -, rfl⟩ := List.mem_map.mp h
  rw [slice_length]
  exact Nat.min_le_left _ _

/-- With no data there is nothing to fold: the tail is shorter than a block. -/
theorem afterFold_nil {s : State} (h : s.tailWf = true) : afterFold [] (s.tailBuf ++ []) s = s := by
  have hlen := tailWf_iff.mp h
  have hlt : s.tailBuf.length < blockSize := hlen ▸ s.tailUsed.isLt
  rw [List.append_nil, afterFold, foldWhole_of_lt _ _ hlt, remainder_of_lt hlt, hlen, List.length_nil,
    BitVec.add_zero, BitVec.ofNat_toNat, BitVec.setWidth_eq]

/-- Folding data in two parts is folding it at once (R56): what the first fold leaves is the tail of the second. -/
theorem afterFold_append (a b : List Byte) (s : State) :
    afterFold b ((afterFold a (s.tailBuf ++ a) s).tailBuf ++ b) (afterFold a (s.tailBuf ++ a) s) =
      afterFold (a ++ b) (s.tailBuf ++ (a ++ b)) s := by
  have hacc := foldWhole_append stripe (size := blockSize) (by decide) s.acc (s.tailBuf ++ a) b
  have htail := remainder_append (size := blockSize) (by decide) (s.tailBuf ++ a) b
  rw [← List.append_assoc s.tailBuf a b]
  simp only [afterFold, hacc, htail, List.length_append, BitVec.ofNat_add, BitVec.add_assoc]

theorem afterFold_respond (data input bytes : List Byte) (s : State) :
    afterFold data input (respond bytes s) = respond bytes (afterFold data input s) := by
  simp only [afterFold, respond]

theorem respond_respond (as bs : List Byte) (s : State) : respond bs (respond as s) = respond (as ++ bs) s := by
  simp only [respond, List.append_assoc]

/-- UPDATEs one after the other fold their data as one, each with its own response (R56). -/
theorem execAll_updates (chunks : List (List Byte)) {s : State} (hwf : s.tailWf = true) (hok : s.faultCause = codeNone)
    (hready : s.phase = .ready) (hfits : s.totalLen.toNat + chunks.flatten.length ≤ maxLength) :
    execAll (chunks.map .update) s = .next (respond (List.replicate chunks.length codeNone)
      (afterFold chunks.flatten (s.tailBuf ++ chunks.flatten) s)) := by
  induction chunks generalizing s with
  | nil =>
    rw [List.flatten_nil, afterFold_nil hwf, List.map_nil, execAll_nil]
    simp [respond]
  | cons d ds ih =>
    rw [List.flatten_cons, List.length_append, ← Nat.add_assoc] at hfits
    have hd : s.totalLen.toNat + d.length ≤ maxLength := (Nat.le_add_right _ _).trans hfits
    rw [List.map_cons, execAll_cons _ (exec_update_of_fits hok hready hd),
      ih (performUpdate_tailWf d s hwf) ((performUpdate_faultCause d s).trans hok) ((performUpdate_phase d s).trans hready)
        (by rw [performUpdate_totalLen_toNat hwf hd]; exact hfits),
      performUpdate_eq d s hwf, respondOk, respond_tailBuf, afterFold_respond, respond_respond, afterFold_append]
    rfl

/-- Settles O59: the pieces are UPDATEs whose data concatenate to the whole. -/
theorem updatenLeavesTheStateOfOneUpdate : Obligations.UpdatenLeavesTheStateOfOneUpdate := by
  intro data n s hn hwf hok hready hfits
  have hpieces := execAll_updates (pieces n data) hwf hok hready (by rw [pieces_flatten hn]; exact hfits)
  rw [pieces_flatten hn] at hpieces
  refine ⟨_, _, hpieces, exec_update_of_fits hok hready hfits, ?_, fun d hd => ?_⟩
  · rw [performUpdate_eq data s hwf]
    exact ⟨rfl, rfl, rfl, rfl, rfl, rfl, rfl⟩
  · obtain ⟨d', hd', heq⟩ := List.mem_map.mp hd
    cases heq
    exact length_le_of_mem_pieces hd'

end Sys2Proof.Machine
end

section
/-! SUPPORT. The proofs about the mixing unit (spec/40_mixing_unit.md): where a rotation moves each bit, which word of a
block each lane of STRIPE reads, and why ROUND and MERGE lose nothing. -/

namespace Sys2Proof.Machine

open Sys2Proof.Config (primes)

/-! ### The rotation (O11) -/

/-- For the amounts of R45 the shift-or formula is the library's rotation. -/
theorem rotl64_eq_rotateLeft {n : Nat} (hn : n < 64) (x : Word) : rotl64 x n = x.rotateLeft n := by
  rw [BitVec.rotateLeft_def, Nat.mod_eq_of_lt hn, rotl64]

/-- Bit `j` of a rotated word comes from `n` places below, counted around the word. -/
theorem getLsbD_rotl64 {n j : Nat} (hn : n < 64) (hj : j < 64) (x : Word) :
    (rotl64 x n).getLsbD j = x.getLsbD ((j + (64 - n)) % 64) := by
  rw [rotl64_eq_rotateLeft hn, BitVec.getLsbD_rotateLeft_of_le hn]
  by_cases hlow : j < n
  · have hsrc : (j + (64 - n)) % 64 = 64 - n + j := by omega
    simp [hlow, hsrc]
  · have hsrc : (j + (64 - n)) % 64 = j - n := by omega
    simp [hlow, hsrc, hj]

/-- Bit `i` moves to bit `(i + n) mod 64` (R45). -/
theorem getLsbD_rotl64_moved {n i : Nat} (hn : n < 64) (hi : i < 64) (x : Word) :
    (rotl64 x n).getLsbD ((i + n) % 64) = x.getLsbD i := by
  have hsrc : ((i + n) % 64 + (64 - n)) % 64 = i := by omega
  rw [getLsbD_rotl64 hn (Nat.mod_lt _ (by decide)), hsrc]

/-- A word whose bits are all the same is fixed by every rotation. -/
theorem rotl64_of_bits_eq {n : Nat} (hn : n < 64) {x : Word} {b : Bool} (hx : ∀ i, i < 64 → x.getLsbD i = b) :
    rotl64 x n = x := by
  apply BitVec.eq_of_getLsbD_eq
  intro j hj
  rw [getLsbD_rotl64 hn hj, hx j hj, hx _ (Nat.mod_lt _ (by decide))]

/-- Settles O11: the library's rotation, read bit by bit. -/
theorem rotationMovesEachBit : Obligations.RotationMovesEachBit := by
  refine ⟨fun x n _ hn63 => ?_, by decide, by decide⟩
  have hn : n < 64 := by omega
  exact ⟨rfl, fun i hi => getLsbD_rotl64_moved hn hi x, rotl64_of_bits_eq hn (b := false) (by decide),
    rotl64_of_bits_eq hn (b := true) (by decide)⟩

/-! ### STRIPE (O14) -/

@[simp] theorem blockWord_zero_append (w : Word) (rest : List Byte) : blockWord (le64Bytes w ++ rest) 0 = w := by
  rw [blockWord, Nat.mul_zero, slice_zero, List.take_left' (le64Bytes_length w), le64_le64Bytes]

@[simp] theorem blockWord_succ_append (w : Word) (rest : List Byte) (k : Nat) :
    blockWord (le64Bytes w ++ rest) (k + 1) = blockWord rest k := by
  rw [blockWord, blockWord, slice, slice, Nat.mul_succ, Nat.add_comm, ← List.drop_drop,
    List.drop_left' (le64Bytes_length w)]

/-- A word that lies inside a block is written back as the bytes it was read from. -/
theorem le64Bytes_blockWord {block : List Byte} {k : Nat} (h : 8 * k + 8 ≤ block.length) :
    le64Bytes (blockWord block k) = slice block (8 * k) 8 :=
  le64Bytes_le64 (by rw [slice_length]; omega)

/-- STRIPE on four little-endian words: each lane takes its own (R49). -/
theorem stripe_le64Bytes (a : Accumulators) (w0 w1 w2 w3 : Word) :
    stripe a (le64Bytes w0 ++ le64Bytes w1 ++ le64Bytes w2 ++ le64Bytes w3) =
      ⟨laneRound a.acc1 w0, laneRound a.acc2 w1, laneRound a.acc3 w2, laneRound a.acc4 w3⟩ := by
  rw [← List.append_nil (le64Bytes w3)]
  simp only [stripe, List.append_assoc, blockWord_zero_append, blockWord_succ_append]

/-- A block of 32 bytes is its four words, written one after the other. -/
theorem block_eq_le64Bytes {block : List Byte} (h : block.length = 32) :
    block = le64Bytes (blockWord block 0) ++ le64Bytes (blockWord block 1) ++ le64Bytes (blockWord block 2) ++
      le64Bytes (blockWord block 3) := by
  have hslices := flatten_slices 8 4 block
  rw [List.take_of_length_le h.le] at hslices
  rw [le64Bytes_blockWord (by omega), le64Bytes_blockWord (by omega), le64Bytes_blockWord (by omega),
    le64Bytes_blockWord (by omega), List.append_assoc, List.append_assoc]
  simpa [List.range_succ] using hslices.symm

/-- Settles O14: what STRIPE does with four words, and that every block is four words. -/
theorem stripeMixesEachLaneAlone : Obligations.StripeMixesEachLaneAlone :=
  ⟨stripe_le64Bytes, fun _ h => ⟨_, _, _, _, block_eq_le64Bytes h⟩, by decide⟩

/-! ### The bijections (O15) -/

/-- There are finitely many words, so a map of words that is injective is a bijection. -/
theorem bijective_of_injective {f : Word → Word} (hf : Function.Injective f) : Function.Bijective f :=
  have : Finite Word := Finite.of_injective BitVec.toFin BitVec.toFin_injective
  Finite.injective_iff_bijective.mp hf

theorem odd_toNat_iff (c : Word) : Odd c.toNat ↔ c.getLsbD 0 = true := by
  rw [Nat.odd_iff, BitVec.getLsbD, Nat.testBit_zero, decide_eq_true_iff]

/-- Multiplying by an odd word is a bijection: an odd number has no factor in common with 2^64. -/
theorem mul_bijective_of_odd {c : Word} (hc : c.getLsbD 0 = true) : Function.Bijective (fun x : Word => x * c) := by
  apply bijective_of_injective
  intro x y hxy
  have hcop : Nat.gcd (2 ^ 64) c.toNat = 1 := ((odd_toNat_iff c).mpr hc).coprime_two_left.pow_left 64
  have hmod : x.toNat * c.toNat ≡ y.toNat * c.toNat [MOD 2 ^ 64] := by
    simpa only [BitVec.toNat_mul, Nat.ModEq] using congrArg BitVec.toNat hxy
  apply BitVec.eq_of_toNat_eq
  exact (hmod.cancel_right_of_coprime hcop).eq_of_lt_of_lt x.isLt y.isLt

/-- A rotation is a bijection: each bit of the word can be read off where it has moved. -/
theorem rotl64_bijective {n : Nat} (hn : n < 64) : Function.Bijective (fun x : Word => rotl64 x n) := by
  apply bijective_of_injective
  intro x y hxy
  apply BitVec.eq_of_getLsbD_eq
  intro i hi
  rw [← getLsbD_rotl64_moved hn hi x, ← getLsbD_rotl64_moved hn hi y]
  exact congrArg (BitVec.getLsbD · ((i + n) % 64)) hxy

theorem xor_bijective (c : Word) : Function.Bijective (fun x : Word => x ^^^ c) :=
  bijective_of_injective fun _ _ hxy => (BitVec.xor_left_inj c).mp hxy

/-- PRIME1 is odd (R43). -/
theorem prime1_odd : primes.prime1.getLsbD 0 = true := by decide

/-- PRIME2 is odd (R43). -/
theorem prime2_odd : primes.prime2.getLsbD 0 = true := by decide

/-- What ROUND does after its sum is a bijection: a rotation, then a product with the odd PRIME1. -/
theorem rotl64_mul_prime1_bijective : Function.Bijective (fun x : Word => rotl64 x 31 * primes.prime1) :=
  (mul_bijective_of_odd prime1_odd).comp (rotl64_bijective (by decide))

theorem laneRound_bijective_acc (input : Word) : Function.Bijective (fun acc => laneRound acc input) :=
  rotl64_mul_prime1_bijective.comp (AddGroup.addRight_bijective (input * primes.prime2))

theorem laneRound_bijective_input (acc : Word) : Function.Bijective (fun input => laneRound acc input) :=
  (rotl64_mul_prime1_bijective.comp (AddGroup.addLeft_bijective acc)).comp (mul_bijective_of_odd prime2_odd)

theorem laneMerge_bijective_acc (lane : Word) : Function.Bijective (fun acc => laneMerge acc lane) :=
  ((AddGroup.addRight_bijective primes.prime4).comp (mul_bijective_of_odd prime1_odd)).comp
    (xor_bijective (laneRound 0#64 lane))

@[simp] theorem laneRound_zero_zero : laneRound 0#64 0#64 = 0#64 := by decide

/-- With a zero lane MERGE has nothing to fold in. -/
theorem laneMerge_zero (acc : Word) : laneMerge acc 0#64 = acc * primes.prime1 + primes.prime4 := by
  rw [laneMerge, laneRound_zero_zero, BitVec.xor_zero]

/-- Settles O15: each step of ROUND and of MERGE is a bijection, by R50's reasons. -/
theorem mixingIsBijective : Obligations.MixingIsBijective :=
  ⟨laneRound_bijective_acc, laneRound_bijective_input, laneMerge_bijective_acc, laneRound_zero_zero, laneMerge_zero⟩

/-! ### The table and the formulas (O10, O12, O13) -/

/-- Settles O10: the table of R43 and the wrapped values of R44, read off the constants. -/
theorem mixingConstantsAreTheTable : Obligations.MixingConstantsAreTheTable :=
  ⟨rfl, prime1_odd, prime2_odd, by decide, by decide, by decide, by decide, by decide⟩

/-- Settles O12: the formula is ROUND's definition, evaluated at the inputs R47 names. -/
theorem roundComputesItsFormula : Obligations.RoundComputesItsFormula :=
  ⟨fun _ _ => rfl, laneRound_zero_zero, by decide, by decide, by decide, by decide⟩

/-- Settles O13: the formula is MERGE's definition, evaluated at the inputs R48 names. -/
theorem mergeComputesItsFormula : Obligations.MergeComputesItsFormula :=
  ⟨fun _ _ => rfl, by decide, by decide, by decide, by decide⟩

end Sys2Proof.Machine
end

section
/-! SUPPORT. The proofs about INIT (spec/41_init.md): the state it leaves, and the digest of a stream with no bytes. -/

namespace Sys2Proof.Machine

open Sys2Proof.Config (primes blockSize)

/-! ### The state INIT leaves (O17) -/

/-- Settles O17: the one check before INIT is on FAULT_CAUSE, and its body writes the registers R51 lists. -/
theorem initLoadsTheRegisters : Obligations.InitLoadsTheRegisters :=
  fun seed _ => ⟨rfl, fun hok => exec_init_of_ok seed hok, fun hf => exec_of_faulted (.init seed) hf⟩

/-! ### The digest of the empty stream (O18) -/

/-- Below one block CONVERGE reads only the third lane (R59). -/
theorem converge_of_lt {totalLen : Word} (h : totalLen.toNat < blockSize) (a : Accumulators) :
    converge totalLen a = a.acc3 + primes.prime5 := if_neg (Nat.not_le_of_lt h)

/-- With no tail byte there is nothing to pass over (R61). -/
@[simp] theorem tailPasses_nil (h : Word) : tailPasses h [] = h := by
  have hshort : ([] : List Byte).length < 8 := by decide
  rw [tailPasses, foldWhole_of_lt _ _ hshort, remainder_of_lt hshort, shortPasses]
  rfl

/-- The third lane starts from the seed (R51), and the empty stream adds neither length nor tail to it (R52). -/
theorem digestOf_performInit (seed : Word) (s : State) :
    digestOf (performInit seed s) = avalanche (seed + primes.prime5) := by
  have hconverge : converge 0#64 (initAcc seed) = seed + primes.prime5 := converge_of_lt (by decide) (initAcc seed)
  have htail : validTail (performInit seed s) = [] := rfl
  rw [digestOf, htail, finalize, tailPasses_nil, performInit_totalLen, performInit_acc, hconverge, BitVec.add_zero]

/-- Settles O18: INIT leaves READY with no fault, so DIGEST is performed, on the empty stream. -/
theorem seedFixesTheEmptyDigest : Obligations.SeedFixesTheEmptyDigest := by
  refine ⟨fun seed s hok => ⟨performInit seed s, exec_init_of_ok seed hok, ?_⟩, by decide⟩
  have hdigest : exec .digest (performInit seed s) = .next (performDigest (performInit seed s)) :=
    exec_digest_of_ready hok (performInit_phase seed s)
  rw [hdigest, performDigest, digestOf_performInit]
  rfl

end Sys2Proof.Machine
end

section
/-! SUPPORT. The proofs about UPDATE (spec/42_update.md): UPDATE as one fold and by the steps of R53, the blocks it folds,
its tail buffer, and the stream that a sequence of UPDATEs leaves (R56, R57). -/

namespace Sys2Proof.Machine

open Sys2Proof.Config (blockSize maxLength)

/-! ### UPDATE where every check passes (O19, O20, O21) -/

theorem append_length_of_tailWf {s : State} (hwf : s.tailWf = true) (data : List Byte) :
    (s.tailBuf ++ data).length = s.tailUsed.toNat + data.length := by
  rw [List.length_append, tailWf_iff.mp hwf]

/-- The whole next state, from what the fold of the old tail and the data leaves of them. -/
theorem exec_update_of_fold {data : List Byte} {s : State} (hwf : s.tailWf = true) (hok : s.faultCause = codeNone)
    (hready : s.phase = .ready) (hfits : s.totalLen.toNat + data.length ≤ maxLength) {acc : Accumulators}
    {tail : List Byte}
    (hacc : foldWhole blockSize stripe s.acc (s.tailBuf ++ data) = acc)
    (htail : remainder blockSize (s.tailBuf ++ data) = tail) :
    exec (.update data) s = .next { s with
      totalLen := s.totalLen + BitVec.ofNat 64 data.length
      acc := acc
      tailBuf := tail
      tailUsed := BitVec.ofNat 5 tail.length
      responses := s.responses ++ [codeNone] } := by
  rw [exec_update_of_fits hok hready hfits, performUpdate_eq data s hwf, afterFold, hacc, htail, respondOk, respond]

/-- Settles O19: the fold of the old tail and the data, where the remainder is as long as R54 says. -/
theorem updateFoldsTailThenData : Obligations.UpdateFoldsTailThenData := by
  intro data s hwf hok hready hfits
  rw [exec_update_of_fold hwf hok hready hfits rfl rfl, remainder_length, append_length_of_tailWf hwf]
  rfl

/-- Step 3 of R53 completes the tail with the first `n` bytes of the data and folds it into `first`, or is skipped where
the tail is empty; the fold of the old tail and the data goes on from there. -/
theorem fold_after_completion {data : List Byte} {s : State} (hwf : s.tailWf = true)
    (hlong : blockSize ≤ s.tailUsed.toNat + data.length) {n : Nat} {first : Accumulators}
    (hempty : s.tailUsed.toNat = 0 → n = 0 ∧ first = s.acc)
    (hpart : 0 < s.tailUsed.toNat →
      n = blockSize - s.tailUsed.toNat ∧ first = stripe s.acc (s.tailBuf ++ data.take n)) :
    foldWhole blockSize stripe s.acc (s.tailBuf ++ data) = foldWhole blockSize stripe first (data.drop n) ∧
      remainder blockSize (s.tailBuf ++ data) = remainder blockSize (data.drop n) := by
  have hlen := tailWf_iff.mp hwf
  obtain hzero | hpos := Nat.eq_zero_or_pos s.tailUsed.toNat
  · obtain ⟨rfl, rfl⟩ := hempty hzero
    rw [List.eq_nil_of_length_eq_zero (hlen.trans hzero), List.nil_append, List.drop_zero]
    exact ⟨rfl, rfl⟩
  · obtain ⟨rfl, rfl⟩ := hpart hpos
    have hshort : s.tailBuf.length ≤ blockSize := hlen ▸ s.tailUsed.isLt.le
    have hle : blockSize ≤ (s.tailBuf ++ data).length := append_length_of_tailWf hwf data ▸ hlong
    rw [foldWhole_of_le stripe (by decide) _ hle, remainder_of_le (by decide) hle, List.take_append, List.drop_append,
      List.take_of_length_le hshort, List.drop_of_length_le hshort, List.nil_append, hlen]
    exact ⟨rfl, rfl⟩

/-- Settles O20: below one block there is nothing to fold, and otherwise the fold goes on after step 3. -/
theorem updateFollowsItsSteps : Obligations.UpdateFollowsItsSteps := by
  intro data s hwf hok hready hfits
  refine ⟨rfl, fun hshort => ?_, fun hlong n first hempty hpart => ?_⟩
  · have hlt : (s.tailBuf ++ data).length < blockSize := append_length_of_tailWf hwf data ▸ hshort
    rw [exec_update_of_fold hwf hok hready hfits (foldWhole_of_lt stripe s.acc hlt) (remainder_of_lt hlt),
      append_length_of_tailWf hwf]
    rfl
  · obtain ⟨hacc, htail⟩ := fold_after_completion hwf hlong hempty hpart
    rw [exec_update_of_fold hwf hok hready hfits hacc htail, remainder_length, foldWhole, remainder, List.length_drop,
      List.drop_drop]
    rfl

/-- Settles O21: the accumulators after `j` blocks are the fold of the first `j`, and block `j` comes last in the next. -/
theorem updateFoldsEachBlockOnce : Obligations.UpdateFoldsEachBlockOnce := by
  intro data s t hwf hok hready hfits he
  rw [exec_update_of_fold hwf hok hready hfits rfl rfl] at he
  cases he
  refine ⟨fun j => foldChunks blockSize stripe j s.acc (s.tailBuf ++ data), rfl,
    fun j _ => foldChunks_last stripe blockSize j s.acc _, ?_⟩
  rw [← append_length_of_tailWf hwf, foldWhole]

/-! ### The tail buffer (O22) -/

theorem performUpdate_tailUsed_toNat (data : List Byte) {s : State} (hwf : s.tailWf = true) :
    (performUpdate data s).tailUsed.toNat = (s.tailUsed.toNat + data.length) % blockSize := by
  rw [← tailWf_iff.mp (performUpdate_tailWf data s hwf), performUpdate_eq data s hwf, respondOk_tailBuf, afterFold,
    remainder_length, append_length_of_tailWf hwf]

/-- Settles O22: an UPDATE that leaves FAULT_CAUSE at NONE was performed. -/
theorem tailUsedStaysBelowThirtyTwo : Obligations.TailUsedStaysBelowThirtyTwo := by
  intro data s t hwf hready he hok
  obtain ⟨hf, hx⟩ | ⟨-, -, hx⟩ | ⟨-, -, -, hx⟩ | ⟨-, -, -, hx⟩ := execUpdate_cases data s <;>
    rw [exec, hx] at he <;> cases he
  · exact absurd hok hf
  · exact absurd hok (faultCode_ne_codeNone .uninit)
  · exact absurd hok (faultCode_ne_codeNone .lengthOverflow)
  · exact ⟨(performUpdate data s).tailUsed.isLt, performUpdate_tailUsed_toNat data hwf,
      tailWf_iff.mp (performUpdate_tailWf data s hwf)⟩

/-! ### UPDATE of no bytes (O23) -/

theorem exec_update_of_uninit (data : List Byte) {s : State} (hok : s.faultCause = codeNone) (huninit : s.phase = .uninit) :
    exec (.update data) s = .next (raiseFault .uninit s) := by
  rw [exec, execUpdate, unlessFaulted_of_ok _ hok, whenReady_of_uninit _ huninit]

/-- Settles O23: in READY the empty data always fits the counter, and folding it changes nothing. -/
theorem emptyUpdateChangesNothing : Obligations.EmptyUpdateChangesNothing := by
  refine fun s hok => ⟨fun hwf hready => ?_, fun huninit => exec_update_of_uninit [] hok huninit⟩
  have hfits : s.totalLen.toNat + ([] : List Byte).length ≤ maxLength := Nat.le_pred_of_lt s.totalLen.isLt
  rw [exec_update_of_fits hok hready hfits, performUpdate_eq [] s hwf, afterFold_nil hwf]
  rfl

/-! ### Chunking invariance (O24) -/

/-- The digest reads no response byte (R59 to R63). -/
theorem digestOf_respond (bytes : List Byte) (s : State) : digestOf (respond bytes s) = digestOf s := rfl

/-- Settles O24: both sides fold the concatenation, and differ in the responses alone. -/
theorem chunkingDoesNotMatter : Obligations.ChunkingDoesNotMatter := by
  intro chunks s hwf hok hready hfits
  refine ⟨_, _, execAll_updates chunks hwf hok hready hfits, exec_update_of_fits hok hready hfits, ?_, ?_⟩ <;>
    rw [performUpdate_eq _ s hwf]
  · rfl
  · rw [respondOk, digestOf_respond, digestOf_respond]

/-! ### The stream (O25, O26) -/

theorem Clean.totalLen_toNat {seed : Word} {stream : List Byte} {s : State} (h : Clean seed stream s) :
    s.totalLen.toNat = stream.length := by
  rw [h.streamed.totalLen_eq, BitVec.toNat_ofNat, Nat.mod_eq_of_lt (Nat.lt_of_le_of_lt h.length_le (by decide))]

/-- INIT leaves the empty stream (R51). -/
theorem clean_performInit (seed : Word) {s : State} (hok : s.faultCause = codeNone) :
    Clean seed [] (performInit seed s) where
  length_le := Nat.zero_le _
  ready := rfl
  noFault := hok
  streamed := performInit_streamed seed s

theorem Clean.performUpdate {seed : Word} {stream data : List Byte} {s : State} (h : Clean seed stream s)
    (hfits : stream.length + data.length ≤ maxLength) : Clean seed (stream ++ data) (performUpdate data s) where
  length_le := List.length_append.trans_le hfits
  ready := (performUpdate_phase data s).trans h.ready
  noFault := (performUpdate_faultCause data s).trans h.noFault
  streamed := performUpdate_streamed h.streamed data

/-- The check of R72 passes for as long as the stream is one the counter can hold. -/
theorem Clean.exec_update {seed : Word} {stream data : List Byte} {s : State} (h : Clean seed stream s)
    (hfits : stream.length + data.length ≤ maxLength) : exec (.update data) s = .next (Machine.performUpdate data s) :=
  exec_update_of_fits h.noFault h.ready (h.totalLen_toNat ▸ hfits)

/-- DIGEST writes no register (R64). -/
theorem Clean.performDigest {seed : Word} {stream : List Byte} {s : State} (h : Clean seed stream s) :
    Clean seed stream (performDigest s) :=
  ⟨h.length_le, h.ready, h.noFault, h.streamed.respond _⟩

/-- Settles O25: the UPDATE passes its checks, and appends its data to the stream. -/
theorem updateExtendsTheStream : Obligations.UpdateExtendsTheStream :=
  fun _ _ data s h hfits => ⟨performUpdate data s, h.exec_update hfits, h.performUpdate hfits,
    performUpdate_channel data s, performUpdate_responses data s⟩

/-- A command that continues the stream completes, and adds its data to it. -/
theorem Clean.exec_continues {seed : Word} {stream : List Byte} {s : State} (h : Clean seed stream s) {c : Instr}
    (hc : continuesStream c = true) (hfits : stream.length + (streamOf c).length ≤ maxLength) :
    ∃ t, exec c s = .next t ∧ Clean seed (stream ++ streamOf c) t := by
  cases c with
  | init => cases hc
  | update data => exact ⟨_, h.exec_update hfits, h.performUpdate hfits⟩
  | digest => exact ⟨_, exec_digest_of_ready h.noFault h.ready, (List.append_nil stream).symm ▸ h.performDigest⟩
  | illegal => cases hc

theorem Clean.execAll_continues {cmds : List Instr} (hcmds : ∀ c ∈ cmds, continuesStream c = true) {seed : Word}
    {stream : List Byte} {s : State} (h : Clean seed stream s)
    (hfits : stream.length + (cmds.flatMap streamOf).length ≤ maxLength) :
    ∃ t, execAll cmds s = .next t ∧ Clean seed (stream ++ cmds.flatMap streamOf) t := by
  induction cmds generalizing stream s with
  | nil => exact ⟨s, execAll_nil s, (List.append_nil stream).symm ▸ h⟩
  | cons c cs ih =>
    obtain ⟨hc, hcs⟩ := List.forall_mem_cons.mp hcmds
    rw [List.flatMap_cons, List.length_append, ← Nat.add_assoc] at hfits
    obtain ⟨u, hu, hclean⟩ := h.exec_continues hc ((Nat.le_add_right _ _).trans hfits)
    rw [List.flatMap_cons, ← List.append_assoc, execAll_cons cs hu]
    exact ih hcs hclean (by rw [List.length_append]; exact hfits)

/-- Settles O26: INIT starts from the empty stream, and every command after it continues it. -/
theorem streamDeterminesTheRegisters : Obligations.StreamDeterminesTheRegisters := by
  intro seed s cmds hok hcmds hfits
  rw [execAll_cons cmds (exec_init_of_ok seed hok)]
  exact (clean_performInit seed hok).execAll_continues hcmds ((Nat.zero_add _).trans_le hfits)

end Sys2Proof.Machine
end

section
/-! SUPPORT. The proofs about DIGEST (spec/43_digest.md): the branches of CONVERGE, the tail passes, why the avalanche
loses nothing, the response, and that the digest is a function of the seed and the stream. -/

namespace Sys2Proof.Machine

open Sys2Proof.Config (primes blockSize maxLength)

/-! ### The avalanche (O16) -/

/-- A shift to the right lowers every word but zero. -/
theorem eq_zero_of_ushiftRight_eq {n : Nat} (hn : 0 < n) {z : Word} (h : z >>> n = z) : z = 0#64 := by
  have hdiv : z.toNat / 2 ^ n = z.toNat := by rw [← Nat.shiftRight_eq_div_pow, ← BitVec.toNat_ushiftRight, h]
  obtain hzero | hpos := Nat.eq_zero_or_pos z.toNat
  · exact BitVec.eq_of_toNat_eq hzero
  · exact absurd hdiv (Nat.div_lt_self hpos (Nat.one_lt_two_pow hn.ne')).ne

/-- Two words with the same image differ by a word that its own shift leaves alone (R46, R62). -/
theorem xorShift_bijective {n : Nat} (hn : 0 < n) : Function.Bijective (fun h : Word => xorShift h n) := by
  refine bijective_of_injective fun x y hxy => BitVec.xor_eq_zero_iff.mp (eq_zero_of_ushiftRight_eq hn ?_)
  have hxor : xorShift x n ^^^ xorShift y n = 0#64 := BitVec.xor_eq_zero_iff.mpr hxy
  have hdiff : (x ^^^ y) ^^^ ((x ^^^ y) >>> n) = 0#64 := by
    rw [← hxor, BitVec.ushiftRight_xor_distrib, xorShift, xorShift]
    ac_rfl
  exact (BitVec.xor_eq_zero_iff.mp hdiff).symm

theorem prime3_odd : primes.prime3.getLsbD 0 = true := by decide

theorem avalanche_bijective : Function.Bijective avalanche :=
  (xorShift_bijective (by decide : 0 < 32)).comp <| (mul_bijective_of_odd prime3_odd).comp <|
    (xorShift_bijective (by decide : 0 < 29)).comp <| (mul_bijective_of_odd prime2_odd).comp <|
      xorShift_bijective (by decide : 0 < 33)

/-- Settles O16: the five steps are the definition, and each of them is a bijection. -/
theorem avalancheIsBijective : Obligations.AvalancheIsBijective := by
  refine ⟨?_, avalanche_bijective, by decide, by decide, by decide, by decide⟩
  rintro h _ _ _ _ rfl rfl rfl rfl
  rfl

/-! ### CONVERGE (O29, O33) -/

/-- From one block on CONVERGE rotates, adds and merges the four lanes (R59). -/
theorem converge_of_le {totalLen : Word} (h : blockSize ≤ totalLen.toNat) (a : Accumulators) :
    converge totalLen a =
      laneMerge (laneMerge (laneMerge (laneMerge
        (rotl64 a.acc1 1 + rotl64 a.acc2 7 + rotl64 a.acc3 12 + rotl64 a.acc4 18) a.acc1) a.acc2) a.acc3) a.acc4 :=
  if_pos h

/-- Settles O29: the two branches on TOTAL_LEN, and the rule's examples evaluated. -/
theorem convergeTestsTotalLength : Obligations.ConvergeTestsTotalLength :=
  ⟨fun _ a =>
      ⟨fun hle => ⟨_, _, _, _, rfl, rfl, rfl, rfl, converge_of_le hle a⟩, fun hlt => converge_of_lt hlt a⟩,
    by decide, by decide, by decide⟩

/-- Before the first whole block no stripe has been folded (R57). -/
theorem Clean.acc_of_lt {seed : Word} {stream : List Byte} {s : State} (h : Clean seed stream s)
    (hlt : s.totalLen.toNat < blockSize) : s.acc = initAcc seed := by
  have hblocks : stream.length / blockSize = 0 := Nat.div_eq_of_lt (h.totalLen_toNat ▸ hlt)
  rw [h.streamed.acc_eq, hblocks, streamAcc]

/-- Settles O33: the accumulators are still those of INIT, whose third lane is the seed. -/
theorem shortBranchStartsFromTheSeed : Obligations.ShortBranchStartsFromTheSeed := by
  intro seed stream s h hlt
  have hacc3 : s.acc.acc3 = s.seed := by rw [h.acc_of_lt hlt, h.streamed.seed_eq, initAcc]
  exact ⟨hacc3, by rw [converge_of_lt hlt, hacc3]⟩

/-! ### The tail passes (O30) -/

/-- The loop over whole chunks takes the chunks in order, and leaves a rest shorter than one. -/
theorem foldWhole_flatten {α : Type} (f : α → List Byte → α) {size : Nat} (hs : 0 < size) {rest : List Byte}
    (hrest : rest.length < size) {chunks : List (List Byte)} (hchunks : ∀ c ∈ chunks, c.length = size) (a : α) :
    foldWhole size f a (chunks.flatten ++ rest) = chunks.foldl f a ∧
      remainder size (chunks.flatten ++ rest) = rest := by
  induction chunks generalizing a with
  | nil => exact ⟨foldWhole_of_lt f a hrest, remainder_of_lt hrest⟩
  | cons c cs ih =>
    obtain ⟨hc, hcs⟩ := List.forall_mem_cons.mp hchunks
    have hle : size ≤ (c ++ (cs.flatten ++ rest)).length := by rw [List.length_append, hc]; exact Nat.le_add_right _ _
    rw [List.flatten_cons, List.append_assoc, foldWhole_of_le f hs a hle, remainder_of_le hs hle, List.take_left' hc,
      List.drop_left' hc, List.foldl_cons]
    exact ih hcs (f a c)

/-- Pass b takes a 4-byte word, and pass c the bytes after it (R61). -/
theorem shortPasses_of_word (h : Word) {word : List Byte} (hword : word.length = 4) (bytes : List Byte) :
    shortPasses h (word ++ bytes) = bytes.foldl bytePass (wordPass h word) := by
  have hle : 4 ≤ (word ++ bytes).length := by rw [List.length_append, hword]; exact Nat.le_add_right _ _
  rw [shortPasses, if_pos hle, slice_zero, List.take_left' hword, List.drop_left' hword]

/-- With fewer than 4 bytes left, pass b takes none (R61). -/
theorem shortPasses_of_lt (h : Word) {bytes : List Byte} (hlt : bytes.length < 4) :
    shortPasses h bytes = bytes.foldl bytePass h := if_neg (Nat.not_le_of_lt hlt)

/-- Pass a takes the whole lanes and leaves the rest to passes b and c (R61). -/
theorem tailPasses_lanes (h : Word) {lanes : List (List Byte)} (hlanes : ∀ lane ∈ lanes, lane.length = 8)
    {rest : List Byte} (hrest : rest.length < 8) :
    tailPasses h (lanes.flatten ++ rest) = shortPasses (lanes.foldl lanePass h) rest := by
  obtain ⟨hfold, hleft⟩ := foldWhole_flatten lanePass (by decide) hrest hlanes h
  rw [tailPasses, hfold, hleft]

/-- Settles O30: pass a folds the lanes; then either there is no word, or pass b takes it. -/
theorem tailPassesConsumeInOrder : Obligations.TailPassesConsumeInOrder := by
  intro h lanes word bytes hlanes hword hbytes
  rw [List.append_assoc]
  obtain rfl | hword := hword
  · refine ⟨_, _, rfl, fun _ => rfl, fun hne => absurd rfl hne, ?_⟩
    rw [List.nil_append, tailPasses_lanes h hlanes (hbytes.trans (by decide)), shortPasses_of_lt _ hbytes]
    rfl
  · have hne : word ≠ [] := List.ne_nil_of_length_pos (hword ▸ by decide)
    have hrest : (word ++ bytes).length < 8 := by rw [List.length_append]; omega
    refine ⟨_, _, rfl, fun hnil => absurd hnil hne, fun _ => rfl, ?_⟩
    rw [tailPasses_lanes h hlanes hrest, shortPasses_of_word _ hword]
    rfl

/-! ### The response of DIGEST (O28, O31) -/

/-- The field of a word, byte by byte from bits 7:0 up to bits 63:56 (R22). -/
theorem le64Bytes_eq (v : Word) : le64Bytes v =
    [v.extractLsb' 0 8, v.extractLsb' 8 8, v.extractLsb' 16 8, v.extractLsb' 24 8, v.extractLsb' 32 8,
      v.extractLsb' 40 8, v.extractLsb' 48 8, v.extractLsb' 56 8] := by
  simp only [le64Bytes, leBytes, ← BitVec.shiftRight_add, ← BitVec.setWidth_ushiftRight_eq_extractLsb,
    BitVec.ushiftRight_zero]

theorem exec_digest_of_uninit {s : State} (hok : s.faultCause = codeNone) (huninit : s.phase = .uninit) :
    exec .digest s = .next (raiseFault .uninit s) := by
  rw [exec, execDigest, unlessFaulted_of_ok _ hok, whenReady_of_uninit _ huninit]

/-- Settles O28: where the checks pass, the four stages run over the whole tail list, and the response spells their
result. -/
theorem digestRespondsWithTheHash : Obligations.DigestRespondsWithTheHash := by
  refine fun s => ⟨rfl, fun hwf hok hready => ⟨_, rfl, ?_⟩, fun hok huninit => exec_digest_of_uninit hok huninit,
    fun hf => exec_of_faulted .digest hf⟩
  rw [exec_digest_of_ready hok hready, performDigest, digestOf, validTail_eq hwf, finalize, le64Bytes_eq, respond,
    codeNone]

/-- DIGESTs one after the other change nothing that a DIGEST reads, so each responds as the first (R64). -/
theorem execAll_digests (n : Nat) {s : State} (hok : s.faultCause = codeNone) (hready : s.phase = .ready) :
    execAll (List.replicate n .digest) s =
      .next (respond (List.replicate n (codeNone :: le64Bytes (digestOf s))).flatten s) := by
  induction n generalizing s with
  | zero => simp [execAll_nil, respond]
  | succ n ih =>
    have hsame : digestOf (performDigest s) = digestOf s := digestOf_respond _ s
    rw [List.replicate_succ, List.replicate_succ, List.flatten_cons, execAll_cons _ (exec_digest_of_ready hok hready),
      ih (s := performDigest s) hok hready, hsame, performDigest, respond_respond]

/-- Settles O31: the response is the STATUS and the digest of the state before the first DIGEST. -/
theorem digestIsAPureRead : Obligations.DigestIsAPureRead := by
  intro n s hok hready
  refine ⟨codeNone :: le64Bytes (digestOf s), ?_, execAll_digests n hok hready⟩
  rw [List.length_cons, le64Bytes_length]

/-! ### The digest of a stream (O32, O34) -/

/-- In a clean state DIGEST completes with the hash of the stream (R67). -/
theorem Clean.exec_digest {seed : Word} {stream : List Byte} {s : State} (h : Clean seed stream s) :
    exec .digest s = .next (respond (codeNone :: le64Bytes (xxh64 seed stream)) s) := by
  rw [exec_digest_of_ready h.noFault h.ready, Machine.performDigest, digestOf_streamed h.streamed]

/-- Settles O34: the commands leave the block clean for their stream (R57). -/
theorem digestDependsOnSeedAndStreamAlone : Obligations.DigestDependsOnSeedAndStreamAlone := by
  intro seed s cmds hok hcmds hfits
  obtain ⟨t, ht, hclean⟩ := streamDeterminesTheRegisters seed s cmds hok hcmds hfits
  exact ⟨t, ht, hclean.exec_digest⟩

/-- The seed and the stream determine every register (R57, R92). -/
theorem Clean.sameRegisters {seed : Word} {stream : List Byte} {s t : State} (hs : Clean seed stream s)
    (ht : Clean seed stream t) : sameRegisters s t :=
  ⟨hs.streamed.seed_eq.trans ht.streamed.seed_eq.symm, hs.streamed.acc_eq.trans ht.streamed.acc_eq.symm,
    hs.streamed.totalLen_eq.trans ht.streamed.totalLen_eq.symm,
    hs.streamed.tailBuf_eq.trans ht.streamed.tailBuf_eq.symm,
    BitVec.eq_of_toNat_eq (hs.streamed.tailUsed_eq.trans ht.streamed.tailUsed_eq.symm),
    hs.ready.trans ht.ready.symm, hs.noFault.trans ht.noFault.symm⟩

/-- One UPDATE and a DIGEST on a clean block: what is hashed is the stream with the data appended. -/
theorem Clean.execAll_update_digest {seed : Word} {stream data : List Byte} {s : State} (h : Clean seed stream s)
    (hfits : stream.length + data.length ≤ maxLength) (cmds : List Instr) : ∃ t,
    execAll (.update data :: .digest :: cmds) s = execAll cmds t ∧ Clean seed (stream ++ data) t ∧
      t.responses = s.responses ++ [codeNone] ++ (codeNone :: le64Bytes (xxh64 seed (stream ++ data))) := by
  have hclean := h.performUpdate hfits
  refine ⟨_, ?_, hclean.performDigest, ?_⟩
  · rw [execAll_cons _ (h.exec_update hfits), execAll_cons _ (exec_digest_of_ready hclean.noFault hclean.ready)]
  · rw [performDigest_responses, performUpdate_responses, digestOf_streamed hclean.streamed]

/-- Settles O32: both sequences leave the block clean for D1 followed by D2. -/
theorem midStreamDigestDoesNotCutTheStream : Obligations.MidStreamDigestDoesNotCutTheStream := by
  intro seed d1 d2 s hok hlen
  have hinit := clean_performInit seed hok
  have hwhole : ([] : List Byte).length + (d1 ++ d2).length ≤ maxLength := (Nat.zero_add _).trans_le hlen
  have hfits : d1.length + d2.length ≤ maxLength := List.length_append.symm.trans_le hlen
  have hfirst : ([] : List Byte).length + d1.length ≤ maxLength :=
    (Nat.zero_add _).trans_le ((Nat.le_add_right _ _).trans hfits)
  obtain ⟨r, hr, hrclean, hrresp⟩ := hinit.execAll_update_digest hfirst [.update d2, .digest]
  obtain ⟨t, ht, htclean, htresp⟩ := hrclean.execAll_update_digest hfits []
  obtain ⟨u, hu, huclean, huresp⟩ := hinit.execAll_update_digest hwhole []
  refine ⟨t, u, ?_, ?_, htclean.sameRegisters huclean, ?_, ?_⟩
  · rw [execAll_cons _ (exec_init_of_ok seed hok), hr, ht, execAll_nil]
  · rw [execAll_cons _ (exec_init_of_ok seed hok), hu, execAll_nil]
  · simp [htresp, hrresp, codeNone]
  · simp [huresp, codeNone]

end Sys2Proof.Machine
end

section
/-! SUPPORT. The proofs about faults (spec/60_exceptions.md): when each fault is raised, that it writes FAULT_CAUSE alone,
and that from then on every packet is refused until a reset. -/

namespace Sys2Proof.Machine

open Sys2Proof.Config (maxLength)

/-! ### A fault writes FAULT_CAUSE alone (O40, O55) -/

/-- Of what a command can do in a block that is not faulted, only raising a fault writes FAULT_CAUSE (R8, R74). -/
theorem exec_eq_raiseFault {i : Instr} {s t : State} (h : exec i s = .next t) (hok : s.faultCause = codeNone)
    (hfault : t.faultCause ≠ codeNone) : ∃ c, t = raiseFault c s := by
  obtain ⟨hf, -⟩ | ⟨-, hraise⟩ | ⟨-, seed, -, rfl⟩ | ⟨-, -, data, -, -, rfl⟩ | ⟨-, -, -, rfl⟩ := exec_cases i s t h
  · exact absurd hok hf
  · exact hraise
  · exact absurd hok hfault
  · exact absurd ((performUpdate_faultCause data s).trans hok) hfault
  · exact absurd hok hfault

/-- Settles O40: the packet's command raised a fault on the state with the packet consumed. -/
theorem faultsArePrecise : Obligations.FaultsArePrecise := by
  intro s t i rest hdec hs hok hfault
  rw [stepRunsTheDecodedCommand.1 s i rest hdec] at hs
  obtain ⟨c, rfl⟩ := exec_eq_raiseFault hs hok hfault
  rfl

/-- Settles O55: a command, a reset and holding each give a next state. -/
theorem everyStepGivesANextState : Obligations.EveryStepGivesANextState := step_next

/-! ### A faulted block (O41, O42) -/

/-- Settles O41: the packet's command is refused, and no faulted state is final. -/
theorem faultedBlockRefusesEveryPacket : Obligations.FaultedBlockRefusesEveryPacket := by
  refine ⟨fun s i rest hf hdec => ?_, fun s hf => final_of_faulted hf⟩
  rw [stepRunsTheDecodedCommand.1 s i rest hdec]
  exact exec_of_faulted i hf

/-- Settles O42, by what stands on the channel: a packet is refused, a reset is taken, or the block holds. -/
theorem onlyResetLeavesAFault : Obligations.OnlyResetLeavesAFault := by
  intro s t hf hs
  rw [step] at hs
  cases harr : arrival s.channel with
  | packet i rest =>
    rw [harr] at hs
    cases (exec_of_faulted (s := { s with channel := rest }) i hf).symm.trans hs
    exact .inr ⟨nofun, rfl, rfl, rfl, rfl, rfl, rfl, rfl⟩
  | reset rest =>
    rw [harr] at hs
    cases hs
    exact .inl ⟨rest, rfl, rfl, rfl⟩
  | hold =>
    rw [harr] at hs
    cases hs
    exact .inr ⟨nofun, rfl, rfl, rfl, rfl, rfl, rfl, rfl⟩

/-! ### Runs that reach a fault (O60) -/

/-- What every step keeps, every run keeps. -/
theorem run_keeps {P : State → Prop} (hstep : ∀ {s t}, P s → step s = .next t → P t) {n : Nat} {s t : State} (hs : P s)
    (hrun : Host.Core.run core n s = .next t) : P t := by
  induction n generalizing s with
  | zero =>
    cases hrun
    exact hs
  | succ n ih =>
    obtain ⟨u, hu⟩ := step_next s
    rw [run_succ n hu] at hrun
    exact ih (hstep hs hu) hrun

/-- A run goes on from the state an earlier part of it reached. -/
theorem run_add {k : Nat} {s u : State} (n : Nat) (h : Host.Core.run core k s = .next u) :
    Host.Core.run core (k + n) s = Host.Core.run core n u := by
  induction k generalizing s with
  | zero =>
    cases h
    rw [Nat.zero_add]
  | succ k ih =>
    obtain ⟨v, hv⟩ := step_next s
    rw [run_succ k hv] at h
    rw [Nat.succ_add, run_succ _ hv]
    exact ih h

/-- No reset event comes onto the channel by itself. -/
theorem run_no_reset {n : Nat} {s t : State} (hr : .reset ∉ s.channel) (hrun : Host.Core.run core n s = .next t) :
    .reset ∉ t.channel :=
  run_keeps (P := fun u => .reset ∉ u.channel) (fun hu hs => (step_cases_of_no_reset hu hs).1) hr hrun

/-- With no reset event on the channel, a faulted block keeps its cause through a run (R75, R76). -/
theorem run_faultCause_of_no_reset {n : Nat} {s t : State} (hr : .reset ∉ s.channel) (hf : s.faultCause ≠ codeNone)
    (hrun : Host.Core.run core n s = .next t) : t.faultCause = s.faultCause := by
  have hkeeps : .reset ∉ t.channel ∧ t.faultCause = s.faultCause := by
    refine run_keeps (P := fun u => .reset ∉ u.channel ∧ u.faultCause = s.faultCause) ?_ ⟨hr, rfl⟩ hrun
    intro u v ⟨hur, hu⟩ hs
    exact ⟨(step_cases_of_no_reset hur hs).1, (step_faultCause_of_no_reset hur (hu ▸ hf) hs).trans hu⟩
  exact hkeeps.2

/-- With no reset event on the channel, a run that ends without a fault reached none on the way. -/
theorem run_ok_before_ok_end {k n : Nat} {s u t : State} (hr : .reset ∉ s.channel) (hkn : k ≤ n)
    (hu : Host.Core.run core k s = .next u) (hrun : Host.Core.run core n s = .next t) (hok : t.faultCause = codeNone) :
    u.faultCause = codeNone := by
  by_contra hf
  have hrest : Host.Core.run core (n - k) u = .next t := by
    rw [← run_add _ hu, Nat.add_sub_cancel' hkn]
    exact hrun
  exact hf ((run_faultCause_of_no_reset (run_no_reset hr hu) hf hrest).symm.trans hok)

/-- Settles O60: the cause stays to the end of the run, so a final end has no fault before it. -/
theorem faultRefutesAGoodOutcome : Obligations.FaultRefutesAGoodOutcome := by
  constructor
  · intro n s t hr hf hrun
    have hcause := run_faultCause_of_no_reset hr hf hrun
    exact ⟨hcause, final_of_faulted (hcause ▸ hf)⟩
  · intro n s t hr hrun
    constructor
    · rintro ⟨⟨t', hrun', hgood⟩, -⟩
      cases hrun.symm.trans hrun'
      exact hgood
    · intro hfinal
      refine ⟨⟨t, hrun, hfinal⟩, fun k u hk hu => ?_⟩
      exact isFaulted_eq_false.mpr (run_ok_before_ok_end hr hk hu hrun (final_iff.mp hfinal).2)

/-! ### Each cause (O36 to O38) -/

theorem exec_illegal_of_ok (op : Byte) {s : State} (hok : s.faultCause = codeNone) :
    exec (.illegal op) s = .next (raiseFault .illegalOpcode s) := by
  rw [exec, execIllegal, unlessFaulted_of_ok _ hok]

theorem exec_update_of_overflow {data : List Byte} {s : State} (hok : s.faultCause = codeNone) (hready : s.phase = .ready)
    (hover : maxLength < s.totalLen.toNat + data.length) : exec (.update data) s = .next (raiseFault .lengthOverflow s) := by
  rw [exec, execUpdate, unlessFaulted_of_ok _ hok, whenReady_of_ready _ hready, whenLengthFits_of_overflow _ hover]

/-- Settles O36: the opcode byte is the whole packet of an illegal command. -/
theorem illegalOpcodeRaisesItsFault : Obligations.IllegalOpcodeRaisesItsFault := by
  refine ⟨fun op s hok => exec_illegal_of_ok op hok, fun op following s hinit hupdate hdigest hok hch => ?_⟩
  have hwf : (Instr.illegal op).wellFormed = true := by
    simp [Instr.wellFormed, isLegalOpcode, hinit, hupdate, hdigest]
  have hpacket : s.channel = sent (encode (.illegal op)) ++ following := hch
  rw [step_of_packet hwf hpacket]
  exact exec_illegal_of_ok op hok

/-- Settles O37: the phase is checked before the command's body, and INIT has no such check. -/
theorem useBeforeInitRaisesItsFault : Obligations.UseBeforeInitRaisesItsFault :=
  fun _ hok huninit => ⟨fun data => exec_update_of_uninit data hok huninit, exec_digest_of_uninit hok huninit,
    fun seed => ⟨_, exec_init_of_ok seed hok, hok, rfl⟩⟩

/-- Settles O38: the length is checked before anything is folded. -/
theorem lengthOverflowRaisesItsFault : Obligations.LengthOverflowRaisesItsFault :=
  fun _ _ hok hready hover => exec_update_of_overflow hok hready hover

/-! ### The checks in order (O39) -/

theorem phase_eq_ready {s : State} (h : s.phase ≠ .uninit) : s.phase = .ready := by
  cases hp : s.phase with
  | uninit => exact absurd hp h
  | ready => rfl

/-- Settles O39, check by check: the condition of each decides which lemma gives the command's outcome. -/
theorem checksApplyInOrder : Obligations.ChecksApplyInOrder := by
  intro i s _
  by_cases hf : s.faultCause ≠ 0x00#8
  · rw [if_pos hf]
    exact exec_of_faulted i hf
  have hok : s.faultCause = codeNone := not_not.mp hf
  rw [if_neg hf]
  cases i with
  | illegal op => exact exec_illegal_of_ok op hok
  | init seed => exact exec_init_of_ok seed hok
  | digest =>
    dsimp only
    split
    · next huninit => exact exec_digest_of_uninit hok huninit
    · next hinit => exact exec_digest_of_ready hok (phase_eq_ready hinit)
  | update data =>
    dsimp only
    split
    · next huninit => exact exec_update_of_uninit data hok huninit
    · next hinit =>
      split
      · next hover => exact exec_update_of_overflow hok (phase_eq_ready hinit) hover
      · next hfits => exact exec_update_of_fits hok (phase_eq_ready hinit) (Nat.le_of_not_lt hfits)

end Sys2Proof.Machine
end

section
/-! SUPPORT. The proofs about reset and the channels (spec/70_reset_and_hazards.md): what a reset discards and leaves, that
unread responses never hold the block up, and that every run over what the host has sent comes to hold. -/

namespace Sys2Proof.Machine

/-! ### A step by what stands on the channel -/

theorem step_of_arrival_packet {s : State} {i : Instr} {rest : List HostEvent}
    (h : arrival s.channel = .packet i rest) : step s = exec i { s with channel := rest } := by
  rw [step, h]

theorem step_of_arrival_reset {s : State} {rest : List HostEvent} (h : arrival s.channel = .reset rest) :
    step s = .next (resetBlock { s with channel := rest }) := by
  rw [step, h]

theorem step_of_arrival_hold {s : State} (h : arrival s.channel = .hold) : step s = .next s := by
  rw [step, h]

/-- A reset behind bytes on which the decoder waits takes those bytes with it (R85). -/
theorem arrival_of_incomplete_reset {part : List Byte} {e : Incomplete} (h : decode part = .error e)
    (following : List HostEvent) : arrival (sent part ++ .reset :: following) = .reset following := by
  have hbytes : bytesArrived (sent part ++ .reset :: following) = part := by
    rw [bytesArrived_sent, bytesArrived, List.append_nil]
  rw [arrival_of_incomplete (hbytes.symm ▸ h), fromReset_sent, fromReset]

/-! ### Unread responses (O45, O46) -/

/-- A command does the same whatever the host has left unread (R89). -/
theorem exec_unread {i : Instr} {s t : State} (unread : List Byte) (h : exec i s = .next t) :
    exec i { s with responses := unread ++ s.responses } = .next { t with responses := unread ++ t.responses } := by
  simpa only [rehost, exec_channel h] using exec_rehost s.channel unread h

/-- Settles O45: a command and a reset add to the responses or keep them, whatever they are, and holding keeps them. -/
theorem unreadResponsesDoNotMatter : Obligations.UnreadResponsesDoNotMatter := by
  intro unread s t hs
  cases harr : arrival s.channel with
  | packet i rest =>
    rw [step_of_arrival_packet harr] at hs
    have hstep := step_of_arrival_packet (s := { s with responses := unread ++ s.responses }) harr
    exact hstep.trans (exec_unread unread hs)
  | reset rest =>
    rw [step_of_arrival_reset harr] at hs
    cases hs
    exact step_of_arrival_reset harr
  | hold =>
    rw [step_of_arrival_hold harr] at hs
    cases hs
    exact step_of_arrival_hold harr

/-- The host reads `b` from exactly those states that have it ahead of the responses of the state left behind (R89). -/
theorem hostRead_eq_some {b : Byte} {s s1 : State} :
    s.hostRead = some (b, s1) ↔ s = { s1 with responses := [b] ++ s1.responses } := by
  constructor
  · intro h
    rw [State.hostRead] at h
    split at h
    · cases h
    · next b' rest hresp =>
      cases h
      change s = { s with responses := b :: rest }
      rw [← hresp]
  · rintro rfl
    rfl

/-- Settles O46: the byte read is a byte left unread ahead of the responses, so O45 gives the step with it from the step
without it. -/
theorem hostReadCommutesWithStep : Obligations.HostReadCommutesWithStep := by
  intro b s s1 t hread hs
  obtain ⟨t1, ht1⟩ := step_next s1
  rw [hostRead_eq_some.mp hread, unreadResponsesDoNotMatter [b] s1 t1 ht1] at hs
  cases hs
  exact ⟨t1, ht1, hostRead_eq_some.mpr rfl⟩

/-! ### Reset (O49, O50, O54) -/

/-- Settles O49: the beginning does not decode, so the step takes the reset. -/
theorem resetDiscardsAPartialPacket : Obligations.ResetDiscardsAPartialPacket := by
  intro s i part missing following hwf hne henc hch
  obtain ⟨e, hdec⟩ := decode_of_beginning hwf hne henc
  have harr : arrival s.channel = .reset following := hch ▸ arrival_of_incomplete_reset hdec following
  exact ⟨_, step_of_arrival_reset harr, resetBlock_phase _, resetBlock_faultCause _, resetBlock_responses _,
    resetBlock_channel _⟩

/-- Settles O50: before a reset at the head of the channel no byte has arrived, so the step takes it. -/
theorem resetAndPowerOnAgree : Obligations.ResetAndPowerOnAgree := by
  refine ⟨fun s following hch => ?_, rfl, rfl, rfl, rfl⟩
  have harr : arrival s.channel = .reset following := hch ▸ arrival_of_incomplete_reset (part := []) rfl following
  exact step_of_arrival_reset harr

/-- Settles O54: the power-on state is the one a reset leaves (R84). -/
theorem powerOnMeetsTheInvariant : Obligations.PowerOnMeetsTheInvariant := inv_resetBlock State.reset

/-! ### Every run comes to hold (O56) -/

theorem bytesArrived_length_add_fromReset_length (es : List HostEvent) :
    (bytesArrived es).length + (fromReset es).length = es.length := by
  conv_rhs => rw [← sent_bytesArrived es, List.length_append, sent_length]

/-- The block holds, or its step takes at least one event from the channel (R31, R85). -/
theorem holds_or_step_shortens_channel (s : State) :
    arrival s.channel = .hold ∨ ∃ t, step s = .next t ∧ t.channel.length < s.channel.length := by
  have hlen := bytesArrived_length_add_fromReset_length s.channel
  obtain ⟨i, rest, hdec, hs⟩ | ⟨e, rest, -, hreset, hs⟩ | ⟨e, hdec, hreset, -⟩ := step_cases s
  · obtain ⟨t, ht⟩ := exec_next i { s with channel := sent rest ++ fromReset s.channel }
    refine .inr ⟨t, hs.trans ht, ?_⟩
    have hrest := decode_rest_length hdec
    rw [exec_channel ht, List.length_append, sent_length]
    omega
  · refine .inr ⟨_, hs, ?_⟩
    rw [hreset, List.length_cons] at hlen
    change rest.length < s.channel.length
    omega
  · exact .inl (by rw [arrival_of_incomplete hdec, hreset])

/-- Settles O56, by induction on the length of the channel: a block that does not hold has a shorter channel after a
step. -/
theorem everyRunComesToHold : Obligations.EveryRunComesToHold := by
  intro s
  induction hlen : s.channel.length using Nat.strong_induction_on generalizing s with
  | h k ih =>
    obtain hhold | ⟨u, hu, hlt⟩ := holds_or_step_shortens_channel s
    · exact ⟨0, s, Nat.zero_le _, rfl, hhold, step_of_arrival_hold hhold⟩
    · obtain ⟨n, t, hn, hrun, hhold⟩ := ih u.channel.length (hlen ▸ hlt) u rfl
      exact ⟨n + 1, t, by omega, (run_succ n hu).trans hrun, hhold⟩

end Sys2Proof.Machine
end

section
/-! SUPPORT. The proof about the source's three digest vectors (spec/95_test_vectors.md, part 1): the hash of each stream,
and the responses in which a new stream's commands carry it. -/

namespace Sys2Proof.Machine

open Sys2Proof.Config (maxLength)

/-! ### The hashes of W1 to W3 -/

/-- W1: the empty input. -/
theorem xxh64_empty : xxh64 0#64 [] = 0xEF46DB3751D8E999#64 := by decide

/-- W2: one byte, decimal 42; the source's literal has 15 digits (C10). -/
theorem xxh64_byte42 : xxh64 0#64 [42#8] = 0x0A9EDECEBEB03AE4#64 := by decide

/-- W3: three blocks and a tail of four bytes. -/
theorem xxh64_bytes0To99 : xxh64 0#64 ((List.range 100).map (BitVec.ofNat 8)) = 0x6AC1E58032166597#64 := by decide

/-! ### The responses of a new stream (O35) -/

/-- INIT and DIGEST: a new stream holds no byte. -/
theorem execAll_init_digest (seed : Word) {s : State} (hok : s.faultCause = codeNone) : ∃ t,
    execAll [.init seed, .digest] s = .next t ∧
      t.responses = s.responses ++ [codeNone] ++ (codeNone :: le64Bytes (xxh64 seed [])) := by
  have hdigest := (clean_performInit seed hok).exec_digest
  exact ⟨_, by rw [execAll_cons _ (exec_init_of_ok seed hok), execAll_cons _ hdigest, execAll_nil], rfl⟩

/-- INIT, one UPDATE and DIGEST: the data are the whole stream. -/
theorem execAll_init_update_digest (seed : Word) {data : List Byte} {s : State} (hok : s.faultCause = codeNone)
    (hfits : data.length ≤ maxLength) : ∃ t,
    execAll [.init seed, .update data, .digest] s = .next t ∧
      t.responses = s.responses ++ [codeNone] ++ [codeNone] ++ (codeNone :: le64Bytes (xxh64 seed data)) := by
  obtain ⟨t, ht, -, hresp⟩ :=
    (clean_performInit seed hok).execAll_update_digest ((Nat.zero_add _).trans_le hfits) []
  exact ⟨t, by rw [execAll_cons _ (exec_init_of_ok seed hok), ht, execAll_nil], hresp⟩

/-- Settles O35: from power-on each vector's commands answer with the hash of its stream, least significant byte first. -/
theorem sourceVectorsReproduced : Obligations.SourceVectorsReproduced := by
  have hok : State.reset.faultCause = codeNone := rfl
  obtain ⟨t1, h1, hresp1⟩ := execAll_init_digest 0#64 hok
  obtain ⟨t2, h2, hresp2⟩ := execAll_init_update_digest 0#64 (data := [42#8]) hok (by decide)
  obtain ⟨t3, h3, hresp3⟩ :=
    execAll_init_update_digest 0#64 (data := (List.range 100).map (BitVec.ofNat 8)) hok (by decide)
  rw [xxh64_empty] at hresp1
  rw [xxh64_byte42] at hresp2
  rw [xxh64_bytes0To99] at hresp3
  exact ⟨⟨t1, h1, hresp1⟩, ⟨t2, h2, hresp2⟩, t3, h3, hresp3⟩

end Sys2Proof.Machine
end
